-- ==== Sys2Proof/Word.lean ====
section
/-! DEFINITION. The words of the block: the widths that 00_scope.md R9 fixes. -/

namespace Sys2Proof

/-- A u32: an instruction word, an address, a data value or a result (R9, R10). -/
abbrev Word := BitVec 32

/-- One byte of the MemoryBank or of the instruction byte stream (R24, R60). -/
abbrev Byte := BitVec 8

/-- A register index 0..31, which the block only passes through (R9, R21). -/
abbrev RegIndex := BitVec 5

/-- The 3-bit secondary selector (R61). -/
abbrev Funct3 := BitVec 3

/-- The 7-bit secondary selector (R61). -/
abbrev Funct7 := BitVec 7

/-- The 7-bit field `word[6:0]` (R61). -/
abbrev OpcodeBits := BitVec 7

end Sys2Proof
end

