-- ==== Sys2Proof/Config.lean ====
section
/-! DEFINITION. The parameters of this hardware (00_scope.md R9). The block leaves no value open while it goes on
(93_implementation_defined.md Part 1), so there is no free value here. -/

namespace Sys2Proof.Config

/-- BANK_SIZE: the number of bytes in the MemoryBank (R9, R24; 92_eei_decisions.md D7; log entry 7). -/
def bankSize : Nat := 51200

/-- The length of every instruction, in bytes (R9, R60). -/
def instrBytes : Nat := 4

end Sys2Proof.Config
end

