-- ==== Sys2Proof/Syntax.lean ====
section
/-! DEFINITION. The block's instructions: the ten legal opcodes, the six formats, an instruction as the Field Extractor
cuts it from a word (`Instr`), and an instruction as the Decoder emits it (`DecodedInstruction`). -/

namespace Sys2Proof

/-- The ten legal opcodes (10_state.md R27). -/
inductive Opcode where
  | load
  | opImm
  | auipc
  | store
  | op
  | lui
  | branch
  | jalr
  | jal
  | system
  deriving DecidableEq, Repr

/-- The six instruction formats (10_state.md R28). -/
inductive Format where
  | r
  | i
  | s
  | b
  | u
  | j
  deriving DecidableEq, Repr

/-- An instruction of spec/opcode_table.json, with the fields its format has in the word (30_encoding.md R62 to R67)
and the RAW immediate of 40_field_extractor.md R107 to R111: 12 bits for I and S, 13 for B, 32 for U, 21 for J.
The Decoder's sign extension (42_classifier_decoder.md R134) is the instruction's meaning (log entry 5). -/
inductive Instr where
  /-- R140, I format -/
  | load (imm : BitVec 12) (rs1 rd : RegIndex) (funct3 : Funct3)
  /-- R141, I format -/
  | opImm (imm : BitVec 12) (rs1 rd : RegIndex) (funct3 : Funct3)
  /-- R142, U format -/
  | auipc (imm : Word) (rd : RegIndex)
  /-- R143, S format -/
  | store (imm : BitVec 12) (rs2 rs1 : RegIndex) (funct3 : Funct3)
  /-- R144, R format -/
  | op (funct7 : Funct7) (rs2 rs1 rd : RegIndex) (funct3 : Funct3)
  /-- R145, U format -/
  | lui (imm : Word) (rd : RegIndex)
  /-- R146, B format -/
  | branch (imm : BitVec 13) (rs2 rs1 : RegIndex) (funct3 : Funct3)
  /-- R147, I format -/
  | jalr (imm : BitVec 12) (rs1 rd : RegIndex) (funct3 : Funct3)
  /-- R148, J format -/
  | jal (imm : BitVec 21) (rd : RegIndex)
  /-- R149, I format -/
  | system (imm : BitVec 12) (rs1 rd : RegIndex) (funct3 : Funct3)
  deriving DecidableEq, Repr

/-- The variant part of a DecodedInstruction: each variant carries the fields of 10_state.md R29 and no others. -/
inductive Variant where
  | r (funct7 : Funct7) (rs2 rs1 rd : RegIndex) (funct3 : Funct3)
  | i (imm : Word) (rs1 rd : RegIndex) (funct3 : Funct3)
  | s (imm : Word) (rs2 rs1 : RegIndex) (funct3 : Funct3)
  | b (imm : Word) (rs2 rs1 : RegIndex) (funct3 : Funct3)
  | u (imm : Word) (rd : RegIndex)
  | j (imm : Word) (rd : RegIndex)
  deriving DecidableEq, Repr

/-- The Decoder's output: the Opcode, always present, and exactly one variant (10_state.md R29). -/
structure DecodedInstruction where
  opcode : Opcode
  variant : Variant
  deriving DecidableEq, Repr

end Sys2Proof
end

