-- ==== Sys2Proof/WellFormed.lean ====
section
/-! DEFINITION. Which instruction terms an instruction word can stand for: the bits of a raw immediate that no format
encodes are 0 (30_encoding.md R65 to R67). Everything else a term can hold, a word can hold (R73). -/

namespace Sys2Proof

/-- `imm[0]` is not encoded and is always 0 (R65, R67). -/
abbrev evenImm {n : Nat} (imm : BitVec n) : Prop := imm.getLsbD 0 = false

/-- `imm[11:0]` is not encoded and is always 0 (R66). -/
abbrev upperImm (imm : Word) : Prop := imm.extractLsb' 0 12 = 0#12

/-- The terms that are some word's instruction. -/
abbrev WellFormed : Instr → Prop
  | .load _ _ _ _ => True
  | .opImm _ _ _ _ => True
  | .auipc imm _ => upperImm imm
  | .store _ _ _ _ => True
  | .op _ _ _ _ _ => True
  | .lui imm _ => upperImm imm
  | .branch imm _ _ _ => evenImm imm
  | .jalr _ _ _ _ => True
  | .jal imm _ => evenImm imm
  | .system _ _ _ _ => True

end Sys2Proof
end

