-- ==== Sys2Proof/Decode.lean ====
section
/-! DEFINITION. From bytes to an instruction: the word builder, the Field Extractor, the opcode map, the Classifier and
the decoder, total on any bytes; then the encoder, from the same tables. -/

namespace Sys2Proof

/-- Why bytes are no instruction of the block. -/
inductive DecodeError where
  /-- `word[6:0]` is none of the ten codes (42_classifier_decoder.md R132). -/
  | illegalOpcode (code : OpcodeBits)
  /-- Fewer than four bytes: every instruction is exactly 32 bits (30_encoding.md R60). -/
  | truncated
  deriving DecidableEq, Repr

/-! ## Word builder (42_classifier_decoder.md R130) -/

/-- `word_from_bytes`: `{b3, b2, b1, b0}`, so byte 0 is the least significant (R130, R43). -/
def wordFromBytes (b0 b1 b2 b3 : Byte) : Word := b3 ++ b2 ++ b1 ++ b0

/-- The four bytes of an instruction word, in the order of the byte stream (R60). -/
def bytesOfWord (w : Word) : List Byte :=
  [w.extractLsb' 0 8, w.extractLsb' 8 8, w.extractLsb' 16 8, w.extractLsb' 24 8]

/-! ## Field Extractor (40_field_extractor.md), total on every word (R100) -/

namespace Extract

/-- R101: `w[6:0]` -/
def opcode (w : Word) : OpcodeBits := w.extractLsb' 0 7
/-- R102: `w[11:7]` -/
def rd (w : Word) : RegIndex := w.extractLsb' 7 5
/-- R103: `w[14:12]` -/
def funct3 (w : Word) : Funct3 := w.extractLsb' 12 3
/-- R104: `w[19:15]` -/
def rs1 (w : Word) : RegIndex := w.extractLsb' 15 5
/-- R105: `w[24:20]` -/
def rs2 (w : Word) : RegIndex := w.extractLsb' 20 5
/-- R106: `w[31:25]` -/
def funct7 (w : Word) : Funct7 := w.extractLsb' 25 7
/-- R107: `w[31:20]` -/
def immIRaw (w : Word) : BitVec 12 := w.extractLsb' 20 12
/-- R108: the bits 31:25 above the bits 11:7 -/
def immSRaw (w : Word) : BitVec 12 := w.extractLsb' 25 7 ++ w.extractLsb' 7 5
/-- R109: bits 31, 7, 30:25, 11:8 and a 0 -/
def immBRaw (w : Word) : BitVec 13 :=
  w.extractLsb' 31 1 ++ w.extractLsb' 7 1 ++ w.extractLsb' 25 6 ++ w.extractLsb' 8 4 ++ 0#1
/-- R110: `w & 0xFFFFF000` -/
def immU (w : Word) : Word := w &&& 0xFFFFF000#32
/-- R111: bits 31, 19:12, 20, 30:21 and a 0 -/
def immJRaw (w : Word) : BitVec 21 :=
  w.extractLsb' 31 1 ++ w.extractLsb' 12 8 ++ w.extractLsb' 20 1 ++ w.extractLsb' 21 10 ++ 0#1

end Extract

/-! ## Opcode map (30_encoding.md R70, R71) -/

/-- The ten legal opcodes, in the order of R70. -/
def allOpcodes : List Opcode :=
  [.load, .opImm, .auipc, .store, .op, .lui, .branch, .jalr, .jal, .system]

/-- The 7-bit code of each opcode (R70; all but OP_IMM's from general knowledge, D3; log entry 8). -/
def opcodeCode : Opcode → OpcodeBits
  | .load => 0x03
  | .opImm => 0x13
  | .auipc => 0x17
  | .store => 0x23
  | .op => 0x33
  | .lui => 0x37
  | .branch => 0x63
  | .jalr => 0x67
  | .jal => 0x6F
  | .system => 0x73

/-- FORMAT: "determined solely by Opcode" (R70, R71; JALR's and SYSTEM's from general knowledge, D4; log entry 8). -/
def formatOf : Opcode → Format
  | .load => .i
  | .opImm => .i
  | .auipc => .u
  | .store => .s
  | .op => .r
  | .lui => .u
  | .branch => .b
  | .jalr => .i
  | .jal => .j
  | .system => .i

/-! ## Classifier (42_classifier_decoder.md R131, R132) -/

/-- The opcode that has this code; any other code is illegal (R131, R132). -/
def classifyCode (c : OpcodeBits) : Except DecodeError Opcode :=
  match allOpcodes.find? (fun o => opcodeCode o == c) with
  | some o => .ok o
  | none => .error (.illegalOpcode c)

/-- `classify`: only `w[6:0]` is read (R131). -/
def classify (w : Word) : Except DecodeError Opcode := classifyCode (Extract.opcode w)

/-! ## Decoder: classify, then cut the fields of the word's format (42_classifier_decoder.md R134) -/

/-- The fields of the word, for the opcode the Classifier gave (R134, R140 to R149). -/
def extractInstr (o : Opcode) (w : Word) : Instr :=
  match o with
  | .load => .load (Extract.immIRaw w) (Extract.rs1 w) (Extract.rd w) (Extract.funct3 w)
  | .opImm => .opImm (Extract.immIRaw w) (Extract.rs1 w) (Extract.rd w) (Extract.funct3 w)
  | .auipc => .auipc (Extract.immU w) (Extract.rd w)
  | .store => .store (Extract.immSRaw w) (Extract.rs2 w) (Extract.rs1 w) (Extract.funct3 w)
  | .op => .op (Extract.funct7 w) (Extract.rs2 w) (Extract.rs1 w) (Extract.rd w) (Extract.funct3 w)
  | .lui => .lui (Extract.immU w) (Extract.rd w)
  | .branch => .branch (Extract.immBRaw w) (Extract.rs2 w) (Extract.rs1 w) (Extract.funct3 w)
  | .jalr => .jalr (Extract.immIRaw w) (Extract.rs1 w) (Extract.rd w) (Extract.funct3 w)
  | .jal => .jal (Extract.immJRaw w) (Extract.rd w)
  | .system => .system (Extract.immIRaw w) (Extract.rs1 w) (Extract.rd w) (Extract.funct3 w)

/-- The instruction of a word, or the reason it has none. Only the opcode is judged (R133). -/
def decodeWord (w : Word) : Except DecodeError Instr :=
  match classify w with
  | .ok o => .ok (extractInstr o w)
  | .error e => .error e

/-- The first instruction of a byte stream and the bytes after it (R60, R150). -/
def decodeBytes : List Byte → Except DecodeError (Instr × List Byte)
  | b0 :: b1 :: b2 :: b3 :: rest =>
    match decodeWord (wordFromBytes b0 b1 b2 b3) with
    | .ok i => .ok (i, rest)
    | .error e => .error e
  | _ => .error .truncated

/-- The opcode an instruction belongs to. -/
def opcodeOf : Instr → Opcode
  | .load _ _ _ _ => .load
  | .opImm _ _ _ _ => .opImm
  | .auipc _ _ => .auipc
  | .store _ _ _ _ => .store
  | .op _ _ _ _ _ => .op
  | .lui _ _ => .lui
  | .branch _ _ _ _ => .branch
  | .jalr _ _ _ _ => .jalr
  | .jal _ _ => .jal
  | .system _ _ _ _ => .system

/-! ## Encoder: the layouts of 30_encoding.md R62 to R67, highest bits first -/

/-- R62 -/
def encodeR (funct7 : Funct7) (rs2 rs1 : RegIndex) (funct3 : Funct3) (rd : RegIndex) (o : Opcode) : Word :=
  funct7 ++ rs2 ++ rs1 ++ funct3 ++ rd ++ opcodeCode o
/-- R63 -/
def encodeI (imm : BitVec 12) (rs1 : RegIndex) (funct3 : Funct3) (rd : RegIndex) (o : Opcode) : Word :=
  imm ++ rs1 ++ funct3 ++ rd ++ opcodeCode o
/-- R64 -/
def encodeS (imm : BitVec 12) (rs2 rs1 : RegIndex) (funct3 : Funct3) (o : Opcode) : Word :=
  imm.extractLsb' 5 7 ++ rs2 ++ rs1 ++ funct3 ++ imm.extractLsb' 0 5 ++ opcodeCode o
/-- R65 -/
def encodeB (imm : BitVec 13) (rs2 rs1 : RegIndex) (funct3 : Funct3) (o : Opcode) : Word :=
  imm.extractLsb' 12 1 ++ imm.extractLsb' 5 6 ++ rs2 ++ rs1 ++ funct3 ++ imm.extractLsb' 1 4 ++
    imm.extractLsb' 11 1 ++ opcodeCode o
/-- R66 -/
def encodeU (imm : Word) (rd : RegIndex) (o : Opcode) : Word :=
  imm.extractLsb' 12 20 ++ rd ++ opcodeCode o
/-- R67 -/
def encodeJ (imm : BitVec 21) (rd : RegIndex) (o : Opcode) : Word :=
  imm.extractLsb' 20 1 ++ imm.extractLsb' 1 10 ++ imm.extractLsb' 11 1 ++ imm.extractLsb' 12 8 ++ rd ++ opcodeCode o

/-- The word of an instruction. -/
def encode : Instr → Word
  | .load imm rs1 rd funct3 => encodeI imm rs1 funct3 rd .load
  | .opImm imm rs1 rd funct3 => encodeI imm rs1 funct3 rd .opImm
  | .auipc imm rd => encodeU imm rd .auipc
  | .store imm rs2 rs1 funct3 => encodeS imm rs2 rs1 funct3 .store
  | .op funct7 rs2 rs1 rd funct3 => encodeR funct7 rs2 rs1 funct3 rd .op
  | .lui imm rd => encodeU imm rd .lui
  | .branch imm rs2 rs1 funct3 => encodeB imm rs2 rs1 funct3 .branch
  | .jalr imm rs1 rd funct3 => encodeI imm rs1 funct3 rd .jalr
  | .jal imm rd => encodeJ imm rd .jal
  | .system imm rs1 rd funct3 => encodeI imm rs1 funct3 rd .system

/-! ## A row of the opcode table as a word -/

/-- The low `nbits` bits of `w` as an instruction word, every bit above them 0. -/
def tableWord (nbits w : Nat) : Word := BitVec.ofNat 32 (w % 2 ^ nbits)

/-- The instruction the decoder reads from the bytes of `tableWord`. -/
def decodeTableWord (nbits w : Nat) : Option Instr :=
  match decodeBytes (bytesOfWord (tableWord nbits w)) with
  | .ok (i, _) => some i
  | .error _ => none

end Sys2Proof
end

