-- ==== Sys2Proof/Machine/State.lean ====
section
/-! DEFINITION. What the block holds, what its interface carries, and why a step can stop. -/

namespace Sys2Proof.Machine

/-! ## Errors (10_state.md R25, R32; 60_exceptions.md R200, R201) -/

/-- The three ErrorKinds. `divideByZero` belongs to the execute stage: the block never raises it (R206). -/
inductive ErrorKind where
  | illegalValue
  | outOfBounds
  | divideByZero
  deriving DecidableEq, Repr

/-- Which check fired (R201). -/
inductive Site where
  | classify
  | memFlags
  | memBounds
  deriving DecidableEq, Repr

/-- What the fatal error channel carries and FaultLatch records (R25, R201). -/
structure FatalError where
  kind : ErrorKind
  site : Site
  deriving DecidableEq, Repr

/-! ## Operands of the operations (10_state.md R31, R33, R35) -/

/-- MemoryFlags: three independent bits (R33). -/
structure MemoryFlags where
  write : Bool
  read : Bool
  writeback : Bool
  deriving DecidableEq, Repr

/-- The legal access widths (R31). -/
inductive DataWidth where
  | byte
  | halfword
  | word
  deriving DecidableEq, Repr

/-- The eleven extractors (R35; 40_field_extractor.md). -/
inductive FieldSel where
  | opcode
  | rd
  | funct3
  | rs1
  | rs2
  | funct7
  | immIRaw
  | immSRaw
  | immBRaw
  | immU
  | immJRaw
  deriving DecidableEq, Repr

/-- The value of an extractor, of the extractor's own width (R35, R100). -/
inductive FieldValue where
  | opcode (v : OpcodeBits)
  | rd (v : RegIndex)
  | funct3 (v : Funct3)
  | rs1 (v : RegIndex)
  | rs2 (v : RegIndex)
  | funct7 (v : Funct7)
  | immIRaw (v : BitVec 12)
  | immSRaw (v : BitVec 12)
  | immBRaw (v : BitVec 13)
  | immU (v : Word)
  | immJRaw (v : BitVec 21)
  deriving DecidableEq, Repr

/-- One operation that the caller issues (R35). The length of `signExtend` and the width of `access` are integers, so
that the requests the block refuses can be written (41_sign_extension.md R121; 43_memory_unit.md R161; log entry 9). -/
inductive Request where
  | wordFromBytes (b0 b1 b2 b3 : Byte)
  | extract (field : FieldSel) (word : Word)
  | signExtend (value : Word) (length : Int)
  | classify (word : Word)
  | decode (word : Word)
  | access (address writeValue : Word) (flags : MemoryFlags) (width : Int)
  deriving DecidableEq, Repr

/-! ## Responses (00_scope.md R12; 10_state.md R35) -/

/-- The value of an operation that completed, by operation. -/
inductive Result where
  | word (w : Word)
  | field (v : FieldValue)
  | extended (w : Word)
  | classified (o : Opcode)
  | decoded (d : DecodedInstruction)
  | accessed (w : Word)
  deriving DecidableEq, Repr

/-- `Ok(v)` or `Fault(kind, site)` (R12). A refused request has no response: see `Refusal`. -/
inductive Response where
  | ok (r : Result)
  | fault (e : FatalError)
  deriving DecidableEq, Repr

/-! ## State (10_state.md R20, R24, R25, R37) -/

/-- The MemoryBank as its bytes that differ from what an unlisted address reads as, addresses strictly rising
(`Memory.wf` in Machine/Ops.lean; log entry 10). -/
abbrev Memory := List Host.Cell

/-- The block's two pieces of persistent state (R20) and the two ends of its interface (R35, R36; log entries 1, 2). -/
structure State where
  /-- MemoryBank (R24) -/
  bank : Memory
  /-- FaultLatch: the first fatal error, if any (R25) -/
  faultLatch : Option FatalError
  /-- the model's own: the operations the caller has issued and the block has not served, oldest first -/
  requests : List Request
  /-- the model's own: what the last step responded, if it served an operation -/
  response : Option Response
  deriving DecidableEq, Repr

/-- Reset is startup (R37; 70_reset_and_hazards.md R230): every byte 0x00, no fault. No operation is pending and none has
been answered (DESIGN CHOICE, log entries 1 and 2). -/
def State.reset : State where
  bank := []
  faultLatch := none
  requests := []
  response := none

/-! ## Why a step stops -/

/-- The machine stops. -/
inductive Fault where
  /-- Raised by every operation, and by a step with no operation pending, while FaultLatch is set: the run is over and
  "the block admits no operation" (60_exceptions.md R203). Safe: it is the spec's own stop. -/
  | runOver (e : FatalError)
  deriving DecidableEq, Repr

/-- The request has no meaning: it changes no state and the run is refused for good (00_scope.md R12, D24). -/
inductive Refusal where
  /-- Raised by exec for an instruction without a meaning. No instruction is left so. Safe. -/
  | notModelled (mnemonic : String)
  /-- Raised by `access` for a width outside 1, 2, 4 (43_memory_unit.md R161). Safe: the spec gives it no meaning. -/
  | widthNotLegal
  /-- Raised by `sign_extend` for a length outside 1..32 (41_sign_extension.md R121). Safe: no meaning in the spec. -/
  | signExtendLength
  /-- Raised by `sign_extend` for a value neither right-justified nor already extended (41_sign_extension.md R121).
  Safe: no meaning in the spec. -/
  | signExtendNotJustified
  deriving DecidableEq, Repr

/-- The outcome of a step of this machine. -/
abbrev Outcome := Host.Outcome State Fault Refusal

end Sys2Proof.Machine
end

