-- ==== Sys2Proof/Machine/Operands.lean ====
section
/-! DEFINITION. The operand forms: Sign Extension and its routing by format (41_sign_extension.md), and the readers of a
DecodedInstruction's fields (10_state.md R29). -/

namespace Sys2Proof.Machine

/-! ## Sign Extension (R120, R121) -/

/-- The arithmetic of R120: L = 32 leaves the value; else bit L-1 set puts ones in bits L..31. -/
def signExtendBits (value : Word) (L : Nat) : Word :=
  if L = 32 then value
  else if value.getLsbD (L - 1) then value ||| (0xFFFFFFFF#32 <<< L)
  else value

/-- `admitted(value, L)` of R121: right-justified, or already extended from bit L-1. `value >>> L` is `value[31:L]`. -/
def justified (value : Word) (L : Nat) : Bool :=
  L == 32 || value >>> L == 0#32
    || value >>> L == (if value.getLsbD (L - 1) then 0xFFFFFFFF#32 >>> L else 0#32)

/-- `sign_extend(value, L)` (R120): a length outside 1..32 is refused, and so is a value that is not admitted (R121). -/
def signExtend (value : Word) (length : Int) : Except Refusal Word :=
  if length < 1 ∨ 32 < length then .error .signExtendLength
  else if justified value length.toNat then .ok (signExtendBits value length.toNat)
  else .error .signExtendNotJustified

/-! ## The sign-extension router (R122): the decoded immediate of each format's raw immediate.
The raw immediates are right-justified, so the router never makes a refused request. -/

/-- I and S: L = 12. -/
def routeIS (raw : BitVec 12) : Word := signExtendBits (raw.setWidth 32) 12
/-- B: L = 13. -/
def routeB (raw : BitVec 13) : Word := signExtendBits (raw.setWidth 32) 13
/-- U: used as it stands. -/
def routeU (raw : Word) : Word := raw
/-- J: L = 21. -/
def routeJ (raw : BitVec 21) : Word := signExtendBits (raw.setWidth 32) 21

/-! ## Reading a DecodedInstruction (R29): a field outside the active variant is absent (D14; log entry 12) -/

/-- The Format tag of a variant. -/
def variantFormat : Variant → Format
  | .r _ _ _ _ _ => .r
  | .i _ _ _ _ => .i
  | .s _ _ _ _ => .s
  | .b _ _ _ _ => .b
  | .u _ _ => .u
  | .j _ _ => .j

/-- `imm`, in every variant but R. -/
def decodedImm (d : DecodedInstruction) : Option Word :=
  match d.variant with
  | .r _ _ _ _ _ => none
  | .i imm _ _ _ => some imm
  | .s imm _ _ _ => some imm
  | .b imm _ _ _ => some imm
  | .u imm _ => some imm
  | .j imm _ => some imm

/-- `rd`, in the variants R, I, U, J. -/
def decodedRd (d : DecodedInstruction) : Option RegIndex :=
  match d.variant with
  | .r _ _ _ rd _ => some rd
  | .i _ _ rd _ => some rd
  | .s _ _ _ _ => none
  | .b _ _ _ _ => none
  | .u _ rd => some rd
  | .j _ rd => some rd

/-- `rs1`, in the variants R, I, S, B. -/
def decodedRs1 (d : DecodedInstruction) : Option RegIndex :=
  match d.variant with
  | .r _ _ rs1 _ _ => some rs1
  | .i _ rs1 _ _ => some rs1
  | .s _ _ rs1 _ => some rs1
  | .b _ _ rs1 _ => some rs1
  | .u _ _ => none
  | .j _ _ => none

/-- `rs2`, in the variants R, S, B. -/
def decodedRs2 (d : DecodedInstruction) : Option RegIndex :=
  match d.variant with
  | .r _ rs2 _ _ _ => some rs2
  | .i _ _ _ _ => none
  | .s _ rs2 _ _ => some rs2
  | .b _ rs2 _ _ => some rs2
  | .u _ _ => none
  | .j _ _ => none

/-- `funct3`, in the variants R, I, S, B. -/
def decodedFunct3 (d : DecodedInstruction) : Option Funct3 :=
  match d.variant with
  | .r _ _ _ _ funct3 => some funct3
  | .i _ _ _ funct3 => some funct3
  | .s _ _ _ funct3 => some funct3
  | .b _ _ _ funct3 => some funct3
  | .u _ _ => none
  | .j _ _ => none

/-- `funct7`, in the variant R. -/
def decodedFunct7 (d : DecodedInstruction) : Option Funct7 :=
  match d.variant with
  | .r funct7 _ _ _ _ => some funct7
  | .i _ _ _ _ => none
  | .s _ _ _ _ => none
  | .b _ _ _ _ => none
  | .u _ _ => none
  | .j _ _ => none

/-- The invariants of R29: the Opcode determines the variant, and each immediate has the form its variant gives. -/
abbrev decodedWf (d : DecodedInstruction) : Prop :=
  variantFormat d.variant = formatOf d.opcode ∧
    match d.variant with
    | .r _ _ _ _ _ => True
    | .i imm _ _ _ => imm = (imm.extractLsb' 0 12).signExtend 32
    | .s imm _ _ _ => imm = (imm.extractLsb' 0 12).signExtend 32
    | .b imm _ _ _ => imm = (imm.extractLsb' 0 13).signExtend 32 ∧ imm.getLsbD 0 = false
    | .u imm _ => imm.extractLsb' 0 12 = 0#12
    | .j imm _ => imm = (imm.extractLsb' 0 21).signExtend 32 ∧ imm.getLsbD 0 = false

end Sys2Proof.Machine
end

