-- ==== Sys2Proof/Machine/Ops.lean ====
section
/-! DEFINITION. The named operations that the meanings share: admission, completing, raising a fatal error, refusing; and
the MemoryBank's byte, read and write primitives. -/

namespace Sys2Proof.Machine

/-! ## Updates of one field -/

/-- The state with another bank. -/
def State.withBank (s : State) (m : Memory) : State := { s with bank := m }
/-- The state with another FaultLatch. -/
def State.withLatch (s : State) (l : Option FatalError) : State := { s with faultLatch := l }
/-- The state with another list of pending requests. -/
def State.withRequests (s : State) (rs : List Request) : State := { s with requests := rs }
/-- The state with another response. -/
def State.withResponse (s : State) (r : Option Response) : State := { s with response := r }

/-- The caller issues `r` as the operation the block serves next. -/
def State.issueNext (s : State) (r : Request) : State := s.withRequests (r :: s.requests)

/-! ## How an operation ends (00_scope.md R12) -/

/-- While FaultLatch is set the block admits no operation (60_exceptions.md R203; D11; DEDUCED, log entry 4). -/
def ifAdmitted (s : State) (operation : Outcome) : Outcome :=
  match s.faultLatch with
  | none => operation
  | some e => .fault (.runOver e)

/-- The operation completes: `Ok(r)`. -/
def respond (r : Result) (s : State) : Outcome :=
  ifAdmitted s (.next (s.withResponse (some (.ok r))))

/-- TAKING A FATAL ERROR (60_exceptions.md R202): one atomic step that responds `Fault(kind, site)`, sets FaultLatch and
changes nothing else. Nothing is saved, no mode is switched, nothing is jumped to; and there is no return (R204), so no
operation stands beside this one. D11; DEDUCED, log entry 4. -/
def raise (e : FatalError) (s : State) : Outcome :=
  ifAdmitted s (.next ((s.withLatch (some e)).withResponse (some (.fault e))))

/-- The request broke the caller's contract and has no meaning (00_scope.md R12; D24; log entry 9). -/
def refuse (r : Refusal) (s : State) : Outcome := ifAdmitted s (.refused r)

/-- A step with no operation pending: the block does nothing and answers nothing (DESIGN CHOICE, log entry 3). -/
def idle (s : State) : Outcome := ifAdmitted s (.next (s.withResponse none))

/-! ## The MemoryBank (10_state.md R24; 20_memory.md R40 to R42) -/

/-- What an address that the list does not name reads as: "zero-initialized at start" (R24, R37). -/
def unlistedByte : Byte := 0x00

/-- `bank[a]`. -/
def bankByte : Memory → Nat → Byte
  | [], _ => unlistedByte
  | (k, v) :: m, a => if k = a then v else bankByte m a

/-- A cell, unless the list leaves it out. -/
def listed (a : Nat) (b : Byte) (m : Memory) : Memory :=
  if b = unlistedByte then m else (a, b) :: m

/-- `bank[a] <- b`, keeping the list's form: one pass to the place of `a`. -/
def setByte : Memory → Nat → Byte → Memory
  | [], a, b => listed a b []
  | (k, v) :: m, a, b =>
    if a < k then listed a b ((k, v) :: m)
    else if a = k then listed a b m
    else (k, v) :: setByte m a b

/-- The canonical form: addresses strictly rising and no entry equal to what an unlisted address reads as. -/
abbrev Memory.wf (m : Memory) : Prop :=
  m.Pairwise (fun c d => c.1 < d.1) ∧ ∀ c ∈ m, c.2 ≠ unlistedByte

/-- Every listed byte exists: "a byte address a is valid exactly when 0 ≤ a < BANK_SIZE" (R24). -/
abbrev Memory.inBank (m : Memory) : Prop := ∀ c ∈ m, c.1 < Config.bankSize

/-- The loop of MemRead (R41): bytes a+n-1 down to a, the first read the most significant. -/
def memReadFrom (m : Memory) (a : Nat) : Nat → Word → Word
  | 0, acc => acc
  | n + 1, acc => memReadFrom m a n ((acc <<< 8) ||| (bankByte m (a + n)).setWidth 32)

/-- `MemRead(a, n)`, for any n ≤ 4 (R41). -/
def memRead (m : Memory) (a n : Nat) : Word := memReadFrom m a n 0

/-- `MemWrite(a, n, v)`, bytes 0 to n-1 of v in this order (R42). -/
def memWrite (m : Memory) (a : Nat) : Nat → Word → Memory
  | 0, _ => m
  | n + 1, v => setByte (memWrite m a n v) (a + n) (v.extractLsb' (8 * n) 8)

end Sys2Proof.Machine
end

