-- ==== Sys2Proof/Machine/Decoder.lean ====
section
/-! DEFINITION. The meanings of the ten instructions (42_classifier_decoder.md R134, R140 to R149): each emits the
DecodedInstruction of its opcode, with the immediate extended as its format routes it. None writes state, none raises
an error, none judges a field (R133); the block performs no load, store, branch or system call. -/

namespace Sys2Proof.Machine

/-- The Decoder returns `(o, variant)` (R134). -/
def emit (o : Opcode) (v : Variant) (s : State) : Outcome := respond (.decoded ⟨o, v⟩) s

/-- LOAD (R140) -/
def execLoad (imm : BitVec 12) (rs1 rd : RegIndex) (funct3 : Funct3) (s : State) : Outcome :=
  emit .load (.i (routeIS imm) rs1 rd funct3) s

/-- OP_IMM (R141): a shift-immediate keeps its type and amount in imm. -/
def execOpImm (imm : BitVec 12) (rs1 rd : RegIndex) (funct3 : Funct3) (s : State) : Outcome :=
  emit .opImm (.i (routeIS imm) rs1 rd funct3) s

/-- AUIPC (R142): the block adds no pc. -/
def execAuipc (imm : Word) (rd : RegIndex) (s : State) : Outcome :=
  emit .auipc (.u (routeU imm) rd) s

/-- STORE (R143) -/
def execStore (imm : BitVec 12) (rs2 rs1 : RegIndex) (funct3 : Funct3) (s : State) : Outcome :=
  emit .store (.s (routeIS imm) rs2 rs1 funct3) s

/-- OP (R144) -/
def execOp (funct7 : Funct7) (rs2 rs1 rd : RegIndex) (funct3 : Funct3) (s : State) : Outcome :=
  emit .op (.r funct7 rs2 rs1 rd funct3) s

/-- LUI (R145) -/
def execLui (imm : Word) (rd : RegIndex) (s : State) : Outcome :=
  emit .lui (.u (routeU imm) rd) s

/-- BRANCH (R146): no condition is evaluated and no target computed. -/
def execBranch (imm : BitVec 13) (rs2 rs1 : RegIndex) (funct3 : Funct3) (s : State) : Outcome :=
  emit .branch (.b (routeB imm) rs2 rs1 funct3) s

/-- JALR (R147) -/
def execJalr (imm : BitVec 12) (rs1 rd : RegIndex) (funct3 : Funct3) (s : State) : Outcome :=
  emit .jalr (.i (routeIS imm) rs1 rd funct3) s

/-- JAL (R148) -/
def execJal (imm : BitVec 21) (rd : RegIndex) (s : State) : Outcome :=
  emit .jal (.j (routeJ imm) rd) s

/-- SYSTEM (R149): no environment call and no breakpoint is raised (60_exceptions.md R207). -/
def execSystem (imm : BitVec 12) (rs1 rd : RegIndex) (funct3 : Funct3) (s : State) : Outcome :=
  emit .system (.i (routeIS imm) rs1 rd funct3) s

end Sys2Proof.Machine
end

