-- ==== Sys2Proof/Machine/Dispatch.lean ====
section
/-! DEFINITION. Which meaning each instruction has. -/

namespace Sys2Proof.Machine

def exec (i : Instr) (s : State) : Host.Outcome State Fault Refusal :=
  match i with
  | .load imm rs1 rd funct3 => Sys2Proof.Machine.execLoad imm rs1 rd funct3 s
  | .opImm imm rs1 rd funct3 => Sys2Proof.Machine.execOpImm imm rs1 rd funct3 s
  | .auipc imm rd => Sys2Proof.Machine.execAuipc imm rd s
  | .store imm rs2 rs1 funct3 => Sys2Proof.Machine.execStore imm rs2 rs1 funct3 s
  | .op funct7 rs2 rs1 rd funct3 => Sys2Proof.Machine.execOp funct7 rs2 rs1 rd funct3 s
  | .lui imm rd => Sys2Proof.Machine.execLui imm rd s
  | .branch imm rs2 rs1 funct3 => Sys2Proof.Machine.execBranch imm rs2 rs1 funct3 s
  | .jalr imm rs1 rd funct3 => Sys2Proof.Machine.execJalr imm rs1 rd funct3 s
  | .jal imm rd => Sys2Proof.Machine.execJal imm rd s
  | .system imm rs1 rd funct3 => Sys2Proof.Machine.execSystem imm rs1 rd funct3 s

end Sys2Proof.Machine
end

