-- ==== Sys2Proof/Machine/Frontend.lean ====
section
/-! DEFINITION. The decode front end's operations other than `decode`: the word builder, the extractors, Sign Extension
and the Classifier, each as the caller issues it (10_state.md R35). -/

namespace Sys2Proof.Machine

/-- The extractor's value (40_field_extractor.md R101 to R111). -/
def fieldValue (f : FieldSel) (w : Word) : FieldValue :=
  match f with
  | .opcode => .opcode (Extract.opcode w)
  | .rd => .rd (Extract.rd w)
  | .funct3 => .funct3 (Extract.funct3 w)
  | .rs1 => .rs1 (Extract.rs1 w)
  | .rs2 => .rs2 (Extract.rs2 w)
  | .funct7 => .funct7 (Extract.funct7 w)
  | .immIRaw => .immIRaw (Extract.immIRaw w)
  | .immSRaw => .immSRaw (Extract.immSRaw w)
  | .immBRaw => .immBRaw (Extract.immBRaw w)
  | .immU => .immU (Extract.immU w)
  | .immJRaw => .immJRaw (Extract.immJRaw w)

/-- `word_from_bytes` never refuses and validates nothing (42_classifier_decoder.md R130). -/
def serveWordFromBytes (b0 b1 b2 b3 : Byte) (s : State) : Outcome :=
  respond (.word (wordFromBytes b0 b1 b2 b3)) s

/-- An extractor on any word (R100). -/
def serveExtract (f : FieldSel) (w : Word) (s : State) : Outcome :=
  respond (.field (fieldValue f w)) s

/-- `sign_extend` (41_sign_extension.md R120, R121). -/
def serveSignExtend (value : Word) (length : Int) (s : State) : Outcome :=
  match signExtend value length with
  | .ok v => respond (.extended v) s
  | .error r => refuse r s

/-- `classify` (42_classifier_decoder.md R131, R132). -/
def serveClassify (w : Word) (s : State) : Outcome :=
  match classify w with
  | .ok o => respond (.classified o) s
  | .error _ => raise ⟨.illegalValue, .classify⟩ s

end Sys2Proof.Machine
end

