-- ==== Sys2Proof/Machine/Flags.lean ====
section
/-! DEFINITION. MemoryFlags, DataWidth and the bit codes of the interface types. The block has no status flags
(10_state.md R23). The codes are the spec's own choice and touch transport only (D5, D12, D13, D23; log entry 13). -/

namespace Sys2Proof.Machine

/-- MemoryFlags packed: bit 0 = Write, bit 1 = Read, bit 2 = WritebackToRegister (R33). -/
def flagsPack (f : MemoryFlags) : BitVec 3 :=
  BitVec.ofBool f.writeback ++ BitVec.ofBool f.read ++ BitVec.ofBool f.write

/-- The set that a packed field stands for: all eight values are representable (R33). -/
def flagsUnpack (v : BitVec 3) : MemoryFlags where
  write := v.getLsbD 0
  read := v.getLsbD 1
  writeback := v.getLsbD 2

/-- "Read and Write are mutually exclusive" (R33, R170). -/
def flagsConflict (f : MemoryFlags) : Bool := f.read && f.write

/-- The byte count of a legal width (R31). -/
def widthBytes : DataWidth → Nat
  | .byte => 1
  | .halfword => 2
  | .word => 4

/-- The legal width that an integer byte count stands for; any other count breaks the caller's contract (R31, R161). -/
def widthOfCount (n : Int) : Option DataWidth :=
  if n = 1 then some .byte
  else if n = 2 then some .halfword
  else if n = 4 then some .word
  else none

/-- The 2-bit code of an error, 0 for none (R32). -/
def errorCode : Option ErrorKind → BitVec 2
  | none => 0
  | some .illegalValue => 1
  | some .outOfBounds => 2
  | some .divideByZero => 3

/-- The 2-bit code of a site (R201). -/
def siteCode : Site → BitVec 2
  | .classify => 0
  | .memFlags => 1
  | .memBounds => 2

/-- The 3-bit tag of a format; 6 and 7 are never produced (R28). -/
def formatTag : Format → BitVec 3
  | .r => 0
  | .i => 1
  | .s => 2
  | .b => 3
  | .u => 4
  | .j => 5

end Sys2Proof.Machine
end

