-- ==== Sys2Proof/Machine/MemoryUnit.lean ====
section
/-! DEFINITION. The Memory Unit's one operation, `access` (43_memory_unit.md R160 to R178). -/

namespace Sys2Proof.Machine

/-- `address + width ≤ BANK_SIZE`, as integers, whatever the flags are (R171; D8, D16; log entry 14). -/
def accessFits (address : Word) (width : DataWidth) : Bool :=
  decide (address.toNat + widthBytes width ≤ Config.bankSize)

/-- The read path (R173, R174): the value read with WritebackToRegister, else the address. -/
def accessRead (address : Word) (flags : MemoryFlags) (width : DataWidth) (s : State) : Outcome :=
  respond (.accessed (if flags.writeback then memRead s.bank address.toNat (widthBytes width) else address)) s

/-- The write path (R172): the only one that changes the bank. -/
def accessWrite (address writeValue : Word) (width : DataWidth) (s : State) : Outcome :=
  respond (.accessed address) (s.withBank (memWrite s.bank address.toNat (widthBytes width) writeValue))

/-- The no-op path (R175). -/
def accessNoOp (address : Word) (s : State) : Outcome := respond (.accessed address) s

/-- The paths after the checks, in R160's order. -/
def accessPath (address writeValue : Word) (flags : MemoryFlags) (width : DataWidth) (s : State) : Outcome :=
  if flags.read then accessRead address flags width s
  else if flags.write then accessWrite address writeValue width s
  else accessNoOp address s

/-- `access` (R160): the width refusal, the flags check (R170), the bounds check (R171), then one path. -/
def serveAccess (address writeValue : Word) (flags : MemoryFlags) (width : Int) (s : State) : Outcome :=
  match widthOfCount width with
  | none => refuse .widthNotLegal s
  | some w =>
    if flagsConflict flags then raise ⟨.illegalValue, .memFlags⟩ s
    else if accessFits address w then accessPath address writeValue flags w s
    else raise ⟨.outOfBounds, .memBounds⟩ s

end Sys2Proof.Machine
end

