-- ==== Sys2Proof/Machine/Serve.lean ====
section
/-! DEFINITION. Serving one operation of the caller (10_state.md R35, R36). -/

namespace Sys2Proof.Machine

/-- `decode` (42_classifier_decoder.md R132, R134): the meaning of the word's instruction, or IllegalValue. -/
def serveDecode (w : Word) (s : State) : Outcome :=
  match decodeWord w with
  | .ok i => exec i s
  | .error _ => raise ⟨.illegalValue, .classify⟩ s

/-- One operation, as one atomic step (R36). -/
def serve (r : Request) (s : State) : Outcome :=
  match r with
  | .wordFromBytes b0 b1 b2 b3 => serveWordFromBytes b0 b1 b2 b3 s
  | .extract f w => serveExtract f w s
  | .signExtend v l => serveSignExtend v l s
  | .classify w => serveClassify w s
  | .decode w => serveDecode w s
  | .access a v f n => serveAccess a v f n s

/-- The oldest pending operation is served; with none pending the block is idle (log entry 3). -/
def serveOldest (s : State) : Outcome :=
  match s.requests with
  | [] => idle s
  | r :: rest => serve r (s.withRequests rest)

/-- The caller issues `decode` of an opcode-table row's word as the next operation (log entry 6). -/
def issueTableWord (s : State) (nbits w : Nat) : State := s.issueNext (.decode (tableWord nbits w))

end Sys2Proof.Machine
end

