-- ==== Sys2Proof/Machine/Step.lean ====
section
/-! DEFINITION. One step of the block: one operation of the caller (10_state.md R36; what the model leaves out: log entry 11). -/

namespace Sys2Proof.Machine

/-- One step. -/
def step (s : State) : Host.Outcome State Fault Refusal := serveOldest s

/-- The state in which the next operation is `decode` of the word of these bits: the block has no program counter and
fetches nothing, its caller issues each word (10_state.md R22; log entry 6). -/
def State.withFetchWord (s : State) (nbits w : Nat) : State := issueTableWord s nbits w

end Sys2Proof.Machine
end

