-- ==== Sys2Proof/Machine/Views.lean ====
section
/-! DEFINITION. How a consumer reads what the block emits. The block does none of this: the selector views (10_state.md
R30), the RV32I names, syntax and pseudo-instructions of its words (30_encoding.md R76 to R78, "from general knowledge") and
the `access` an execute unit issues for a load or a store (20_memory.md R56, "informative"). Log entry 15. -/

namespace Sys2Proof.Machine

/-! ## Selector views (R30) -/

/-- The I variant's funct3 of a LOAD: the "load-code". -/
def loadCode (d : DecodedInstruction) : Option Funct3 :=
  if d.opcode = .load then decodedFunct3 d else none

/-- The I variant's funct3 of an OP_IMM: the "op-imm-code". -/
def opImmCode (d : DecodedInstruction) : Option Funct3 :=
  if d.opcode = .opImm then decodedFunct3 d else none

/-- The S variant's funct3: the "store-code". -/
def storeCode (d : DecodedInstruction) : Option Funct3 :=
  if variantFormat d.variant = .s then decodedFunct3 d else none

/-- The B variant's funct3: the "branch-code". -/
def branchCode (d : DecodedInstruction) : Option Funct3 :=
  if variantFormat d.variant = .b then decodedFunct3 d else none

/-- The R variant's funct7 as the "add/sub-type" selector, when funct3 = 0 (R30, R77). -/
def addSubType (d : DecodedInstruction) : Option Funct7 :=
  if decodedFunct3 d = some 0 then decodedFunct7 d else none

/-- The R variant's funct7 as the "shift-type" selector, when funct3 is 1 or 5 (R30, R77). -/
def shiftType (d : DecodedInstruction) : Option Funct7 :=
  if decodedFunct3 d = some 1 ∨ decodedFunct3 d = some 5 then decodedFunct7 d else none

/-! ## RV32I names (R77) -/

/-- The RV32I instructions of the ten legal opcodes. -/
inductive Rv32iName where
  | lui | auipc | jal | jalr
  | beq | bne | blt | bge | bltu | bgeu
  | lb | lh | lw | lbu | lhu
  | sb | sh | sw
  | addi | slti | sltiu | xori | ori | andi | slli | srli | srai
  | add | sub | sll | slt | sltu | xor | srl | sra | or | and
  | ecall | ebreak
  deriving DecidableEq, Repr

/-- One of two names by the shift-type or add/sub-type selector: 0x00 or 0x20; any other value has no name (R73). -/
def nameBySelector (selector : Funct7) (zero : Rv32iName) (alternate : Option Rv32iName) : Option Rv32iName :=
  if selector = 0x00 then some zero else if selector = 0x20 then alternate else none

/-- LOAD's names by load-code. -/
def loadName (funct3 : Funct3) : Option Rv32iName :=
  [some .lb, some .lh, some .lw, none, some .lbu, some .lhu, none, none].getD funct3.toNat none

/-- STORE's names by store-code. -/
def storeName (funct3 : Funct3) : Option Rv32iName :=
  [some .sb, some .sh, some .sw, none, none, none, none, none].getD funct3.toNat none

/-- BRANCH's names by branch-code. -/
def branchName (funct3 : Funct3) : Option Rv32iName :=
  [some .beq, some .bne, none, none, some .blt, some .bge, some .bltu, some .bgeu].getD funct3.toNat none

/-- OP_IMM's names by op-imm-code, and imm[11:5] for the shifts. -/
def opImmName (funct3 : Funct3) (imm : Word) : Option Rv32iName :=
  [some .addi, nameBySelector (imm.extractLsb' 5 7) .slli none, some .slti, some .sltiu, some .xori,
    nameBySelector (imm.extractLsb' 5 7) .srli (some .srai), some .ori, some .andi].getD funct3.toNat none

/-- OP's names by funct3 and funct7. -/
def opName (funct3 : Funct3) (funct7 : Funct7) : Option Rv32iName :=
  [nameBySelector funct7 .add (some .sub), nameBySelector funct7 .sll none, nameBySelector funct7 .slt none,
    nameBySelector funct7 .sltu none, nameBySelector funct7 .xor none, nameBySelector funct7 .srl (some .sra),
    nameBySelector funct7 .or none, nameBySelector funct7 .and none].getD funct3.toNat none

/-- SYSTEM's two names: every field but imm is 0, and imm is 0 or 1. -/
def systemName (imm : Word) (rs1 rd : RegIndex) (funct3 : Funct3) : Option Rv32iName :=
  if rs1 = 0 ∧ rd = 0 ∧ funct3 = 0 then
    if imm = 0 then some .ecall else if imm = 1 then some .ebreak else none
  else none

/-- The name RV32I gives a decoded word, if it gives one (R73, R77). The block does not tell the names apart. -/
def rv32iName (d : DecodedInstruction) : Option Rv32iName :=
  match d.opcode, d.variant with
  | .lui, .u _ _ => some .lui
  | .auipc, .u _ _ => some .auipc
  | .jal, .j _ _ => some .jal
  | .jalr, .i _ _ _ funct3 => if funct3 = 0 then some .jalr else none
  | .branch, .b _ _ _ funct3 => branchName funct3
  | .load, .i _ _ _ funct3 => loadName funct3
  | .store, .s _ _ _ funct3 => storeName funct3
  | .opImm, .i imm _ _ funct3 => opImmName funct3 imm
  | .op, .r funct7 _ _ _ funct3 => opName funct3 funct7
  | .system, .i imm rs1 rd funct3 => systemName imm rs1 rd funct3
  | _, _ => none

/-! ## Assembler syntax (R76): the operands in their written order -/

/-- One line of assembler: the mnemonic and its operands, left to right. -/
inductive AsmLine where
  /-- `add rd, rs1, rs2` -/
  | registers (name : Rv32iName) (rd rs1 rs2 : RegIndex)
  /-- `addi rd, rs1, imm` -/
  | immediate (name : Rv32iName) (rd rs1 : RegIndex) (imm : Int)
  /-- `lw rd, imm(rs1)`, `sw rs2, imm(rs1)`, `jalr rd, imm(rs1)` -/
  | based (name : Rv32iName) (reg : RegIndex) (imm : Int) (base : RegIndex)
  /-- `beq rs1, rs2, offset` -/
  | compare (name : Rv32iName) (rs1 rs2 : RegIndex) (offset : Int)
  /-- `jal rd, offset` -/
  | jump (name : Rv32iName) (rd : RegIndex) (offset : Int)
  /-- `lui rd, imm20`, `auipc rd, imm20` -/
  | upper (name : Rv32iName) (rd : RegIndex) (imm20 : BitVec 20)
  /-- `ecall`, `ebreak` -/
  | plain (name : Rv32iName)
  deriving DecidableEq, Repr

/-- The immediate as it is written: a shift writes its amount, imm[4:0] (R141). -/
def writtenImm (name : Rv32iName) (imm : Word) : Int :=
  if name = .slli ∨ name = .srli ∨ name = .srai then (imm.extractLsb' 0 5).toNat else imm.toInt

/-- The assembler line of a decoded word that has an RV32I name. -/
def asmLine (d : DecodedInstruction) : Option AsmLine :=
  match rv32iName d with
  | none => none
  | some name =>
    match d.variant with
    | .r _ rs2 rs1 rd _ => some (.registers name rd rs1 rs2)
    | .i imm rs1 rd _ =>
      if d.opcode = .system then some (.plain name)
      else if d.opcode = .opImm then some (.immediate name rd rs1 (writtenImm name imm))
      else some (.based name rd imm.toInt rs1)
    | .s imm rs2 rs1 _ => some (.based name rs2 imm.toInt rs1)
    | .b imm rs2 rs1 _ => some (.compare name rs1 rs2 imm.toInt)
    | .u imm rd => some (.upper name rd (imm.extractLsb' 12 20))
    | .j imm rd => some (.jump name rd imm.toInt)

/-! ## Loads and stores as `access` (R56) -/

/-- The width that load-code and store-code name in their low two bits: B = 1, H = 2, W = 4. -/
def nameWidth : Rv32iName → Option DataWidth
  | .lb => some .byte
  | .lbu => some .byte
  | .sb => some .byte
  | .lh => some .halfword
  | .lhu => some .halfword
  | .sh => some .halfword
  | .lw => some .word
  | .sw => some .word
  | _ => none

/-- The `access` an execute unit that holds the registers `x` issues for a load or a store: the effective address is
`x[rs1] + imm`. -/
def consumerAccess (x : List Word) (d : DecodedInstruction) : Option Request :=
  match rv32iName d with
  | none => none
  | some name =>
    match nameWidth name, d.variant with
    | some w, .i imm rs1 _ _ => some (.access (x.getD rs1.toNat 0 + imm) 0 ⟨false, true, true⟩ (widthBytes w))
    | some w, .s imm rs2 rs1 _ =>
      some (.access (x.getD rs1.toNat 0 + imm) (x.getD rs2.toNat 0) ⟨true, false, false⟩ (widthBytes w))
    | _, _ => none

/-- What the consumer makes of the value read: LB and LH sign-extend it by `sign_extend(value, 8 × width)`. -/
def consumerLoadValue (name : Rv32iName) (value : Word) : Except Refusal Word :=
  if name = .lb then signExtend value 8 else if name = .lh then signExtend value 16 else .ok value

/-! ## Pseudo-instructions (R78) -/

/-- The standard pseudo-instructions. R78 gives `la` and `call` two instructions and no split of the symbol, so their
two immediates are arguments here. -/
inductive Pseudo where
  | nop
  | li (rd : RegIndex) (imm : Word)
  | mv (rd rs : RegIndex)
  | not (rd rs : RegIndex)
  | neg (rd rs : RegIndex)
  | seqz (rd rs : RegIndex)
  | snez (rd rs : RegIndex)
  | beqz (rs : RegIndex) (off : BitVec 13)
  | bnez (rs : RegIndex) (off : BitVec 13)
  | bgt (rs rt : RegIndex) (off : BitVec 13)
  | ble (rs rt : RegIndex) (off : BitVec 13)
  | j (off : BitVec 21)
  | jalLink (off : BitVec 21)
  | jr (rs : RegIndex)
  | ret
  | la (rd : RegIndex) (hi20 : BitVec 20) (lo12 : BitVec 12)
  | call (hi20 : BitVec 20) (lo12 : BitVec 12)
  deriving DecidableEq, Repr

/-- The U immediate of a written imm20. -/
def upperOf (imm20 : BitVec 20) : Word := imm20 ++ 0#12

/-- `li`'s low part, `imm[11:0]`. -/
def liLow (imm : Word) : BitVec 12 := imm.extractLsb' 0 12

/-- `li`'s high part: `(imm − lo12)[31:12]`, with lo12 sign-extended. -/
def liHigh (imm : Word) : BitVec 20 := (imm - (liLow imm).signExtend 32).extractLsb' 12 20

/-- The base instructions a pseudo-instruction stands for. -/
def expandPseudo : Pseudo → List Instr
  | .nop => [.opImm 0 0 0 0]
  | .li rd imm =>
    if -2048 ≤ imm.toInt ∧ imm.toInt ≤ 2047 then [.opImm (liLow imm) 0 rd 0]
    else [.lui (upperOf (liHigh imm)) rd, .opImm (liLow imm) rd rd 0]
  | .mv rd rs => [.opImm 0 rs rd 0]
  | .not rd rs => [.opImm 0xFFF rs rd 4]
  | .neg rd rs => [.op 0x20 rs 0 rd 0]
  | .seqz rd rs => [.opImm 1 rs rd 3]
  | .snez rd rs => [.op 0x00 rs 0 rd 3]
  | .beqz rs off => [.branch off 0 rs 0]
  | .bnez rs off => [.branch off 0 rs 1]
  | .bgt rs rt off => [.branch off rs rt 4]
  | .ble rs rt off => [.branch off rs rt 5]
  | .j off => [.jal off 0]
  | .jalLink off => [.jal off 1]
  | .jr rs => [.jalr 0 rs 0 0]
  | .ret => [.jalr 0 1 0 0]
  | .la rd hi20 lo12 => [.auipc (upperOf hi20) rd, .opImm lo12 rd rd 0]
  | .call hi20 lo12 => [.auipc (upperOf hi20) 1, .jalr lo12 1 1 0]

end Sys2Proof.Machine
end

