-- ==== Sys2Proof/Safety.lean ====
section
/-! DEFINITION. What counts as a safe run, in the terms statements use: the caller's obligations (70_reset_and_hazards.md
R234), the invariant of the machine, the byte a history of operations leaves at an address, and the parts of an outcome. -/

namespace Sys2Proof.Machine

/-! ## The parts of an outcome -/

/-- The next state, if the step gives one. -/
def nextOf : Outcome → Option State
  | .next s => some s
  | .fault _ => none
  | .refused _ => none

/-- The fault, if the step ends in one. -/
def faultOf : Outcome → Option Fault
  | .next _ => none
  | .fault r => some r
  | .refused _ => none

/-- The refusal, if the step ends in one. -/
def refusalOf : Outcome → Option Refusal
  | .next _ => none
  | .fault _ => none
  | .refused r => some r

/-! ## The interface, as statements use it -/

/-- `s` with `r` as the operation the block serves next; every state with an operation pending has this form. -/
def issued (r : Request) (s : State) : State := { s with requests := r :: s.requests }

/-- The step takes the fatal error `e`: the response, FaultLatch, and no other change (60_exceptions.md R202). -/
def takesError (o : Outcome) (s : State) (e : FatalError) : Prop :=
  o = .next { s with faultLatch := some e, response := some (.fault e) }

/-! ## The caller's obligations (R234) -/

/-- The ten legal codes, as the spec lists them (30_encoding.md R70). -/
def legalCodes : List OpcodeBits := [0x03, 0x13, 0x17, 0x23, 0x33, 0x37, 0x63, 0x67, 0x6F, 0x73]

/-- The value is right-justified in L bits, or already sign-extended from bit L-1 (R121). -/
abbrev extendable (v : Word) (L : Nat) : Prop :=
  v.toNat < 2 ^ L ∨ v = (v.setWidth L).signExtend 32

/-- `address + width ≤ 51 200`, as integers (R171). -/
abbrev inBounds (a : Word) (n : Int) : Prop := (a.toNat : Int) + n ≤ 51200

/-- A legal width (R31). -/
abbrev legalWidth (n : Int) : Prop := n = 1 ∨ n = 2 ∨ n = 4

/-- The request has a meaning: no refusal is due (R121, R161). -/
abbrev contractKept : Request → Prop
  | .wordFromBytes _ _ _ _ => True
  | .extract _ _ => True
  | .signExtend v l => 1 ≤ l ∧ l ≤ 32 ∧ extendable v l.toNat
  | .classify _ => True
  | .decode _ => True
  | .access _ _ _ n => legalWidth n

/-- The request raises no fatal error (R132, R170, R171). -/
abbrev errorFree : Request → Prop
  | .wordFromBytes _ _ _ _ => True
  | .extract _ _ => True
  | .signExtend _ _ => True
  | .classify w => w.extractLsb' 0 7 ∈ legalCodes
  | .decode w => w.extractLsb' 0 7 ∈ legalCodes
  | .access a _ f n => ¬(f.read = true ∧ f.write = true) ∧ inBounds a n

/-- The run of `k` steps is a success: it ends in a state, with FaultLatch = None (60_exceptions.md R203). -/
def endsWell (k : Nat) (s t : State) : Prop :=
  Host.Core.run Sys2Proof.core k s = .next t ∧ t.faultLatch = none

/-! ## The Decoder's output, written from the word's bits -/

/-- The variant that R134 gives the word for a format: the slices of R102 to R111 and the lengths of R122. -/
def variantFromBits (f : Format) (w : Word) : Variant :=
  match f with
  | .r => .r (w.extractLsb' 25 7) (w.extractLsb' 20 5) (w.extractLsb' 15 5) (w.extractLsb' 7 5) (w.extractLsb' 12 3)
  | .i => .i ((w.extractLsb' 20 12).signExtend 32) (w.extractLsb' 15 5) (w.extractLsb' 7 5) (w.extractLsb' 12 3)
  | .s => .s ((w.extractLsb' 25 7 ++ w.extractLsb' 7 5).signExtend 32) (w.extractLsb' 20 5) (w.extractLsb' 15 5)
      (w.extractLsb' 12 3)
  | .b => .b ((w.extractLsb' 31 1 ++ w.extractLsb' 7 1 ++ w.extractLsb' 25 6 ++ w.extractLsb' 8 4 ++ 0#1).signExtend 32)
      (w.extractLsb' 20 5) (w.extractLsb' 15 5) (w.extractLsb' 12 3)
  | .u => .u (w.extractLsb' 12 20 ++ 0#12) (w.extractLsb' 7 5)
  | .j => .j ((w.extractLsb' 31 1 ++ w.extractLsb' 12 8 ++ w.extractLsb' 20 1 ++ w.extractLsb' 21 10 ++ 0#1).signExtend 32)
      (w.extractLsb' 7 5)

/-- The words of a legal opcode to which RV32I gives no instruction (30_encoding.md R73). -/
def unassignedWord (o : Opcode) (w : Word) : Prop :=
  match o with
  | .load => w.extractLsb' 12 3 ∈ [3#3, 6#3, 7#3]
  | .store => w.extractLsb' 12 3 ∈ [3#3, 4#3, 5#3, 6#3, 7#3]
  | .branch => w.extractLsb' 12 3 ∈ [2#3, 3#3]
  | .jalr => w.extractLsb' 12 3 ≠ 0#3
  | .op => w.extractLsb' 25 7 ∉ [0x00#7, 0x20#7] ∨
      (w.extractLsb' 25 7 = 0x20#7 ∧ w.extractLsb' 12 3 ∉ [0#3, 5#3])
  | .opImm => (w.extractLsb' 12 3 = 1#3 ∧ w.extractLsb' 25 7 ≠ 0x00#7) ∨
      (w.extractLsb' 12 3 = 5#3 ∧ w.extractLsb' 25 7 ∉ [0x00#7, 0x20#7])
  | .system => w ≠ 0x00000073#32 ∧ w ≠ 0x00100073#32
  | .auipc => False
  | .lui => False
  | .jal => False

/-! ## The invariant -/

/-- The errors the block can raise: IllegalValue at CLASSIFY or MEM_FLAGS, OutOfBounds at MEM_BOUNDS (R200). -/
def raisedErrors : List FatalError :=
  [⟨.illegalValue, .classify⟩, ⟨.illegalValue, .memFlags⟩, ⟨.outOfBounds, .memBounds⟩]

/-- What holds in every state of a run: the bank is canonical and inside its addresses (R24); FaultLatch records only an
error the block raises (R200) and is the error last reported (R202); what the Decoder returned is a sound sum type (R29). -/
structure StateInv (s : State) : Prop where
  bank_wf : s.bank.wf
  bank_inBank : s.bank.inBank
  latch_raised : ∀ e, s.faultLatch = some e → e ∈ raisedErrors
  latch_reported : ∀ e, s.faultLatch = some e ↔ s.response = some (.fault e)
  decoded_wf : ∀ d, s.response = some (.ok (.decoded d)) → decodedWf d

/-! ## What a history of operations leaves in the bank (20_memory.md R51) -/

/-- The byte of a written value that lands at `b`, for a write at address `a` (R42). -/
def storedByte (a : Nat) (v : Word) (b : Nat) : Byte := v.extractLsb' (8 * (b - a)) 8

/-- The byte that the operation writes at `a`, if it is an `access` that writes there (R42, R172). -/
def writtenByte (a : Nat) : Request → Option Byte
  | .access ad v f n =>
    if f.write = true ∧ f.read = false ∧ ad.toNat ≤ a ∧ (a : Int) < ad.toNat + n then
      some (storedByte ad.toNat v a)
    else none
  | .wordFromBytes _ _ _ _ => none
  | .extract _ _ => none
  | .signExtend _ _ => none
  | .classify _ => none
  | .decode _ => none

/-- The latest write to `a` among the operations, oldest first; the first byte where there is none. -/
def latestWrite (a : Nat) (before : Byte) : List Request → Byte
  | [] => before
  | r :: rs => latestWrite a ((writtenByte a r).getD before) rs

end Sys2Proof.Machine
end

