-- ==== Sys2Proof/Certificates/Slice0/Obligations.lean ====
section
/-! DEFINITION. The statements for the provers. Each docstring names the rule of spec/ it formalises, or the sections it
is derived from. `issued r s` is `s` with `r` as the operation the block serves next. -/

open Sys2Proof Sys2Proof.Machine

/-! ## Reset and the invariant -/

/-- R37, R230: at reset every byte is 0x00 and no fault is latched (the latch is the spec's own addition, D11). -/
def Obligations.ResetBankIsZeroAndNoFaultLatched : Prop :=
  (∀ a, bankByte State.reset.bank a = 0x00#8) ∧ State.reset.faultLatch = none

/-- The invariant holds at reset. It rests on the model's canonical form of the bank (log entry 10), on the model's own
response field being none at reset (log entry 2), and on FaultLatch, the spec's own addition (D11; log entry 4). -/
def Obligations.ResetStateMeetsInvariant : Prop := StateInv State.reset

/-- Every step keeps the invariant: canonical bank inside its addresses (R24), a latched error is one the block raises
(R200) and the one reported (R202), the Decoder's output is a sound sum type (R29). -/
def Obligations.EveryStepKeepsInvariant : Prop :=
  ∀ s t, StateInv s → step s = .next t → StateInv t

/-! ## Encoding -/

/-- 30_encoding.md section 2: decoding the word of a well-formed instruction gives the instruction back. -/
def Obligations.DecodeOfEncodeIsIdentity : Prop :=
  ∀ i, WellFormed i → decodeWord (encode i) = .ok i

/-- 30_encoding.md section 2: a word that decodes is the word of its instruction, and the instruction is well-formed. -/
def Obligations.EncodeOfDecodeIsIdentity : Prop :=
  ∀ w i, decodeWord w = .ok i → encode i = w ∧ WellFormed i

/-- 30_encoding.md section 1: four bytes of the stream are one instruction, whatever follows them. -/
def Obligations.ByteStreamDecodesOneInstruction : Prop :=
  ∀ i rest, WellFormed i → decodeBytes (bytesOfWord (encode i) ++ rest) = .ok (i, rest)

/-- 95_test_vectors.md W1, V6: words written out in the spec decode to their instructions, one for each opcode.
The immediates are the raw ones of the model's Instr (log entry 5), before the sign extension that V6 lists (0xFFF where V6
has 0xFFFFFFFF); the codes of all but OP_IMM and the formats of JALR, SYSTEM, LUI, AUIPC and JAL are the spec's own choices
(D3, D4; log entry 8). -/
def Obligations.SpecWordsDecodeToTheirInstructions : Prop :=
  decodeWord 0xFFF3A303 = .ok (.load 0xFFF 7 6 2) ∧ decodeWord 0x00100293 = .ok (.opImm 1 0 5 0) ∧
  decodeWord 0x80000197 = .ok (.auipc 0x80000000 3) ∧ decodeWord 0xFE512E23 = .ok (.store 0xFFC 5 2 2) ∧
  decodeWord 0x402081B3 = .ok (.op 0x20 2 1 3 0) ∧ decodeWord 0xDEADB537 = .ok (.lui 0xDEADB000 10) ∧
  decodeWord 0xFE208CE3 = .ok (.branch 0x1FF8 2 1 0) ∧ decodeWord 0x00008067 = .ok (.jalr 0 1 0 0) ∧
  decodeWord 0x001000EF = .ok (.jal 0x800 1) ∧ decodeWord 0xC00022F3 = .ok (.system 0xC00 0 5 2)

/-! ## The Classifier -/

/-- 42_classifier_decoder.md section 2 and 30_encoding.md section 4: the ten codes, and no other (nine of the codes are
the spec's own choice, D3). -/
def Obligations.ClassifierGivesExactlyTheTenCodes : Prop :=
  ∀ w o, classify w = .ok o ↔ (o, w.extractLsb' 0 7) ∈
    [(Opcode.load, 0x03#7), (.opImm, 0x13), (.auipc, 0x17), (.store, 0x23), (.op, 0x33), (.lui, 0x37),
      (.branch, 0x63), (.jalr, 0x67), (.jal, 0x6F), (.system, 0x73)]

/-- `classify` answers the opcode of a legal word and writes no state. -/
def Obligations.ClassifyRespondsTheOpcode : Prop :=
  ∀ s w o, s.faultLatch = none → classify w = .ok o →
    step (issued (.classify w) s) = .next { s with response := some (.ok (.classified o)) }

/-- 42_classifier_decoder.md section 2, 60_exceptions.md section 3: an illegal opcode raises IllegalValue at CLASSIFY, in
`classify` and in `decode`, and changes nothing but the latch and the response (FaultLatch and nine codes are the spec's
own choices, D11, D3). -/
def Obligations.IllegalOpcodeRaisesIllegalValue : Prop :=
  ∀ s w, s.faultLatch = none → w.extractLsb' 0 7 ∉ legalCodes →
    takesError (step (issued (.classify w) s)) s ⟨.illegalValue, .classify⟩ ∧
    takesError (step (issued (.decode w) s)) s ⟨.illegalValue, .classify⟩

/-- R133: nothing but the opcode is checked, so no word with a legal opcode makes the Decoder raise an error. -/
def Obligations.OnlyTheOpcodeIsChecked : Prop :=
  (∀ w w' : Word, w.extractLsb' 0 7 = w'.extractLsb' 0 7 →
    classify w = classify w' ∧ ((∃ i, decodeWord w = .ok i) ↔ ∃ i, decodeWord w' = .ok i)) ∧
  ∀ s w o, s.faultLatch = none → classify w = .ok o →
    ∃ d, step (issued (.decode w) s) = .next { s with response := some (.ok (.decoded d)) }

/-- 30_encoding.md section 4, 20_memory.md section 5: FENCE's and AMO's opcodes and every word with bits [1:0] ≠ 0b11 are
illegal (the two codes are general knowledge in the spec). -/
def Obligations.FenceAtomicAndCompressedWordsAreIllegal : Prop :=
  ∀ w : Word, w.extractLsb' 0 7 = 0x0F#7 ∨ w.extractLsb' 0 7 = 0x2F#7 ∨ w.extractLsb' 0 2 ≠ 0b11#2 →
    classify w = .error (.illegalOpcode (w.extractLsb' 0 7))

/-! ## The Decoder -/

/-- The step serves the decoded instruction: `exec` of it, with the request taken off the caller's list. The word that
`withFetchWord` places is the next one served (log entry 6). -/
def Obligations.StepRunsTheDecodedInstruction : Prop :=
  (∀ s w i, decodeWord w = .ok i → step (issued (.decode w) s) = exec i s) ∧
  ∀ s nbits w i, decodeTableWord nbits w = some i → step (s.withFetchWord nbits w) = exec i s

/-- R134: the Decoder's algorithm, for every word. -/
def Obligations.DecoderFollowsItsAlgorithm : Prop :=
  ∀ s w, s.faultLatch = none →
    match classify w with
    | .ok o => step (issued (.decode w) s) =
        .next { s with response := some (.ok (.decoded ⟨o, variantFromBits (formatOf o) w⟩)) }
    | .error _ => takesError (step (issued (.decode w) s)) s ⟨.illegalValue, .classify⟩

/-- R150: what the Decoder guarantees of its output: opcode, tag, each field of the variant, and no other field. -/
def Obligations.DecoderOutputGuarantees : Prop :=
  ∀ s w, s.faultLatch = none →
    takesError (step (issued (.decode w) s)) s ⟨.illegalValue, .classify⟩ ∨
    ∃ d, step (issued (.decode w) s) = .next { s with response := some (.ok (.decoded d)) } ∧
      classify w = .ok d.opcode ∧
      variantFormat d.variant = formatOf d.opcode ∧
      decodedFunct7 d = (if formatOf d.opcode = .r then some (w.extractLsb' 25 7) else none) ∧
      decodedRs2 d = (if formatOf d.opcode ∈ [.r, .s, .b] then some (w.extractLsb' 20 5) else none) ∧
      decodedRs1 d = (if formatOf d.opcode ∈ [.r, .i, .s, .b] then some (w.extractLsb' 15 5) else none) ∧
      decodedRd d = (if formatOf d.opcode ∈ [.r, .i, .u, .j] then some (w.extractLsb' 7 5) else none) ∧
      decodedFunct3 d = (if formatOf d.opcode ∈ [.r, .i, .s, .b] then some (w.extractLsb' 12 3) else none) ∧
      decodedImm d = (match formatOf d.opcode with
        | .r => none
        | .i => some ((Extract.immIRaw w).signExtend 32)
        | .s => some ((Extract.immSRaw w).signExtend 32)
        | .b => some ((Extract.immBRaw w).signExtend 32)
        | .u => some (Extract.immU w)
        | .j => some ((Extract.immJRaw w).signExtend 32))

/-- 42_classifier_decoder.md section 4: the four I-format instructions complete, with the 12-bit immediate extended; the
rest of the state is unchanged (JALR's and SYSTEM's format is the spec's own choice, D4). -/
def Obligations.IFormatInstructionsEmitTheirFields : Prop :=
  ∀ (s : State) (imm : BitVec 12) (rs1 rd : RegIndex) (funct3 : Funct3), s.faultLatch = none →
    exec (.load imm rs1 rd funct3) s =
      .next { s with response := some (.ok (.decoded ⟨.load, .i (imm.signExtend 32) rs1 rd funct3⟩)) } ∧
    exec (.opImm imm rs1 rd funct3) s =
      .next { s with response := some (.ok (.decoded ⟨.opImm, .i (imm.signExtend 32) rs1 rd funct3⟩)) } ∧
    exec (.jalr imm rs1 rd funct3) s =
      .next { s with response := some (.ok (.decoded ⟨.jalr, .i (imm.signExtend 32) rs1 rd funct3⟩)) } ∧
    exec (.system imm rs1 rd funct3) s =
      .next { s with response := some (.ok (.decoded ⟨.system, .i (imm.signExtend 32) rs1 rd funct3⟩)) }

/-- 42_classifier_decoder.md section 4: STORE, BRANCH and JAL complete, with their 12-, 13- and 21-bit immediates
extended; the rest of the state is unchanged. -/
def Obligations.StoreBranchAndJalEmitTheirFields : Prop :=
  ∀ (s : State) (imm12 : BitVec 12) (imm13 : BitVec 13) (imm21 : BitVec 21) (rs2 rs1 rd : RegIndex) (funct3 : Funct3),
    s.faultLatch = none →
    exec (.store imm12 rs2 rs1 funct3) s =
      .next { s with response := some (.ok (.decoded ⟨.store, .s (imm12.signExtend 32) rs2 rs1 funct3⟩)) } ∧
    exec (.branch imm13 rs2 rs1 funct3) s =
      .next { s with response := some (.ok (.decoded ⟨.branch, .b (imm13.signExtend 32) rs2 rs1 funct3⟩)) } ∧
    exec (.jal imm21 rd) s =
      .next { s with response := some (.ok (.decoded ⟨.jal, .j (imm21.signExtend 32) rd⟩)) }

/-- 42_classifier_decoder.md section 4: OP, LUI and AUIPC complete; OP carries no immediate and the U immediate is used as
it stands; the rest of the state is unchanged. -/
def Obligations.OpAndUpperInstructionsEmitTheirFields : Prop :=
  ∀ (s : State) (funct7 : Funct7) (rs2 rs1 rd : RegIndex) (funct3 : Funct3) (imm : Word), s.faultLatch = none →
    exec (.op funct7 rs2 rs1 rd funct3) s =
      .next { s with response := some (.ok (.decoded ⟨.op, .r funct7 rs2 rs1 rd funct3⟩)) } ∧
    exec (.lui imm rd) s = .next { s with response := some (.ok (.decoded ⟨.lui, .u imm rd⟩)) } ∧
    exec (.auipc imm rd) s = .next { s with response := some (.ok (.decoded ⟨.auipc, .u imm rd⟩)) }

/-- 42_classifier_decoder.md section 4 ("State written: none"), the frame of every instruction: no byte of the bank, no
fault and no pending request changes. -/
def Obligations.InstructionsWriteNoState : Prop :=
  ∀ i s t, exec i s = .next t →
    (∀ a, bankByte t.bank a = bankByte s.bank a) ∧ t.bank = s.bank ∧ t.faultLatch = s.faultLatch ∧
    t.requests = s.requests

/-- 30_encoding.md section 4 (R73's list): the words RV32I leaves unassigned decode like any other, and are exactly the
decoded words without an RV32I name (which words these are is general knowledge in the spec). -/
def Obligations.UnassignedWordsDecodeWithoutAName : Prop :=
  ∀ s w o, s.faultLatch = none → classify w = .ok o →
    ∃ d, step (issued (.decode w) s) = .next { s with response := some (.ok (.decoded d)) } ∧
      (rv32iName d = none ↔ unassignedWord o w)

/-! ## Word builder, extractors, sign extension -/

/-- R130: byte 0 is the least significant, and nothing is validated. -/
def Obligations.WordBuilderIsLittleEndian : Prop :=
  ∀ s b0 b1 b2 b3, s.faultLatch = none →
    ∃ w : Word, step (issued (.wordFromBytes b0 b1 b2 b3) s) = .next { s with response := some (.ok (.word w)) } ∧
      w.toNat = b0.toNat + b1.toNat * 2 ^ 8 + b2.toNat * 2 ^ 16 + b3.toNat * 2 ^ 24

/-- R101 to R106: the six fixed-position fields of every word, legal or not; no state is written. -/
def Obligations.ExtractorsReturnTheFixedFields : Prop :=
  ∀ s w, s.faultLatch = none →
    step (issued (.extract .opcode w) s) =
      .next { s with response := some (.ok (.field (.opcode (w.extractLsb' 0 7)))) } ∧
    step (issued (.extract .rd w) s) =
      .next { s with response := some (.ok (.field (.rd (w.extractLsb' 7 5)))) } ∧
    step (issued (.extract .funct3 w) s) =
      .next { s with response := some (.ok (.field (.funct3 (w.extractLsb' 12 3)))) } ∧
    step (issued (.extract .rs1 w) s) =
      .next { s with response := some (.ok (.field (.rs1 (w.extractLsb' 15 5)))) } ∧
    step (issued (.extract .rs2 w) s) =
      .next { s with response := some (.ok (.field (.rs2 (w.extractLsb' 20 5)))) } ∧
    step (issued (.extract .funct7 w) s) =
      .next { s with response := some (.ok (.field (.funct7 (w.extractLsb' 25 7)))) }

/-- R107, R108, R110: where each bit of the I, S and U immediates comes from. -/
def Obligations.ISUImmediatesTakeTheirBits : Prop :=
  ∀ s w, s.faultLatch = none →
    (∃ v, step (issued (.extract .immIRaw w) s) = .next { s with response := some (.ok (.field (.immIRaw v))) } ∧
      ∀ k < 12, v.getLsbD k = w.getLsbD (20 + k)) ∧
    (∃ v, step (issued (.extract .immSRaw w) s) = .next { s with response := some (.ok (.field (.immSRaw v))) } ∧
      (∀ k < 5, v.getLsbD k = w.getLsbD (7 + k)) ∧ ∀ k < 7, v.getLsbD (5 + k) = w.getLsbD (25 + k)) ∧
    ∃ v, step (issued (.extract .immU w) s) = .next { s with response := some (.ok (.field (.immU v))) } ∧
      (∀ k < 12, v.getLsbD k = false) ∧ ∀ k, 12 ≤ k → v.getLsbD k = w.getLsbD k

/-- R109, R111: where each bit of the B and J immediates comes from; bit 0 is always 0. -/
def Obligations.BJImmediatesTakeTheirBits : Prop :=
  ∀ s w, s.faultLatch = none →
    (∃ v, step (issued (.extract .immBRaw w) s) = .next { s with response := some (.ok (.field (.immBRaw v))) } ∧
      v.getLsbD 12 = w.getLsbD 31 ∧ v.getLsbD 11 = w.getLsbD 7 ∧ (∀ k < 6, v.getLsbD (5 + k) = w.getLsbD (25 + k)) ∧
      (∀ k < 4, v.getLsbD (1 + k) = w.getLsbD (8 + k)) ∧ v.getLsbD 0 = false) ∧
    ∃ v, step (issued (.extract .immJRaw w) s) = .next { s with response := some (.ok (.field (.immJRaw v))) } ∧
      v.getLsbD 20 = w.getLsbD 31 ∧ (∀ k < 8, v.getLsbD (12 + k) = w.getLsbD (12 + k)) ∧
      v.getLsbD 11 = w.getLsbD 20 ∧ (∀ k < 10, v.getLsbD (1 + k) = w.getLsbD (21 + k)) ∧ v.getLsbD 0 = false

/-- 41_sign_extension.md: on an admitted value the result is the L low bits, sign-extended (which already-extended values
are admitted is the spec's own choice, D15). -/
def Obligations.SignExtendExtendsAdmittedValues : Prop :=
  ∀ s v (l : Int), s.faultLatch = none → 1 ≤ l → l ≤ 32 → extendable v l.toNat →
    step (issued (.signExtend v l) s) =
      .next { s with response := some (.ok (.extended ((v.setWidth l.toNat).signExtend 32))) }

/-- 41_sign_extension.md: the two refusals (the spec's own choice, D15). -/
def Obligations.SignExtendRefusesOtherRequests : Prop :=
  ∀ s v (l : Int), s.faultLatch = none →
    (l < 1 ∨ 32 < l → step (issued (.signExtend v l) s) = .refused .signExtendLength) ∧
    (1 ≤ l → l ≤ 32 → ¬extendable v l.toNat → step (issued (.signExtend v l) s) = .refused .signExtendNotJustified)

/-- 41_sign_extension.md, the laws (the spec's own derivation): idempotent, low bits kept, high bits the sign. -/
def Obligations.SignExtendObeysItsLaws : Prop :=
  ∀ v u (l : Int), signExtend v l = .ok u →
    signExtend u l = .ok u ∧ u.setWidth l.toNat = v.setWidth l.toNat ∧
    ∀ k, l.toNat ≤ k → k < 32 → u.getLsbD k = v.getLsbD (l.toNat - 1)

/-- 41_sign_extension.md, the router (the spec's own derivation): it never makes a refused request, and its result is
`sign_extend`'s with L = 12, 12, 13, 21. -/
def Obligations.RouterRequestsAreNeverRefused : Prop :=
  ∀ w : Word,
    signExtend ((Extract.immIRaw w).setWidth 32) 12 = .ok (routeIS (Extract.immIRaw w)) ∧
    signExtend ((Extract.immSRaw w).setWidth 32) 12 = .ok (routeIS (Extract.immSRaw w)) ∧
    signExtend ((Extract.immBRaw w).setWidth 32) 13 = .ok (routeB (Extract.immBRaw w)) ∧
    signExtend ((Extract.immJRaw w).setWidth 32) 21 = .ok (routeJ (Extract.immJRaw w)) ∧
    routeU (Extract.immU w) = Extract.immU w

/-! ## The MemoryBank -/

/-- R42: the low n bytes of the value, least significant first, and no other byte. -/
def Obligations.MemWriteStoresExactlyItsBytes : Prop :=
  ∀ (m : Memory) (a n : Nat) (v : Word) (b : Nat), m.wf → n ∈ [1, 2, 4] → a + n ≤ 51200 →
    bankByte (memWrite m a n v) b = if a ≤ b ∧ b < a + n then storedByte a v b else bankByte m b

/-- 20_memory.md section 2: the read is little-endian and zero above its bytes (the zeros are the spec's own choice, D9). -/
def Obligations.MemReadIsLittleEndianAndZeroExtended : Prop :=
  ∀ (m : Memory) (a n : Nat), n ∈ [1, 2, 4] → a + n ≤ 51200 →
    (∀ i < n, (memRead m a n).extractLsb' (8 * i) 8 = bankByte m (a + i)) ∧
    ∀ k, 8 * n ≤ k → (memRead m a n).getLsbD k = false

/-- The canonical form is canonical: two banks that read alike everywhere are equal data. -/
def Obligations.BanksThatReadAlikeAreEqual : Prop :=
  ∀ m m' : Memory, m.wf → m'.wf → (∀ a, bankByte m a = bankByte m' a) → m = m'

/-! ## The Memory Unit -/

/-- R172: the write path stores the value's low bytes at the address, answers the address, and is the only path that
changes the bank. -/
def Obligations.WritePathStoresAndIsTheOnlyOne : Prop :=
  (∀ s a v (f : MemoryFlags) (n : Int), s.faultLatch = none → s.bank.wf → f.write = true → f.read = false →
    legalWidth n → inBounds a n →
    ∃ m, step (issued (.access a v f n) s) = .next { s with bank := m, response := some (.ok (.accessed a)) } ∧
      ∀ b : Nat, bankByte m b =
        if a.toNat ≤ b ∧ (b : Int) < a.toNat + n then storedByte a.toNat v b else bankByte s.bank b) ∧
  ∀ s r t, step (issued r s) = .next t →
    (∀ a v (f : MemoryFlags) n, r = .access a v f n → ¬(f.write = true ∧ f.read = false ∧ legalWidth n ∧ inBounds a n)) →
    t.bank = s.bank ∧ ∀ b, bankByte t.bank b = bankByte s.bank b

/-- 43_memory_unit.md, the read path: a read with writeback answers the little-endian value of its bytes, zero-extended (the
zeros are the spec's own choice, D9); no byte changes. -/
def Obligations.ReadWithWritebackAnswersTheBytes : Prop :=
  ∀ s a v (f : MemoryFlags) (n : Int), s.faultLatch = none → f.read = true → f.write = false → f.writeback = true →
    legalWidth n → inBounds a n →
    ∃ u : Word, step (issued (.access a v f n) s) = .next { s with response := some (.ok (.accessed u)) } ∧
      (∀ i : Nat, (i : Int) < n → u.extractLsb' (8 * i) 8 = bankByte s.bank (a.toNat + i)) ∧
      ∀ k : Nat, 8 * n ≤ (k : Int) → u.getLsbD k = false

/-- R174, R175: a read without writeback and a no-op answer the address; no byte changes. -/
def Obligations.PlainReadAndNoOpAnswerTheAddress : Prop :=
  ∀ s a v (f : MemoryFlags) (n : Int), s.faultLatch = none → f.write = false → (f.read = true → f.writeback = false) →
    legalWidth n → inBounds a n →
    step (issued (.access a v f n) s) = .next { s with response := some (.ok (.accessed a)) }

/-- R170: Read and Write together raise IllegalValue at MEM_FLAGS, in bounds or not. -/
def Obligations.ReadAndWriteTogetherRaiseIllegalValue : Prop :=
  ∀ s a v (f : MemoryFlags) (n : Int), s.faultLatch = none → legalWidth n → f.read = true → f.write = true →
    takesError (step (issued (.access a v f n) s)) s ⟨.illegalValue, .memFlags⟩

/-- 43_memory_unit.md: an access that ends beyond the bank raises OutOfBounds, a no-op too (integer sum and no-op are the
spec's own choices, D8, D16). -/
def Obligations.AccessBeyondTheBankRaisesOutOfBounds : Prop :=
  ∀ s a v (f : MemoryFlags) (n : Int), s.faultLatch = none → legalWidth n → ¬(f.read = true ∧ f.write = true) →
    ¬inBounds a n → takesError (step (issued (.access a v f n) s)) s ⟨.outOfBounds, .memBounds⟩

/-- 43_memory_unit.md: any other width is refused, before every check (the spec's own choice, D6). -/
def Obligations.OtherWidthsAreRefused : Prop :=
  ∀ s a v f n, s.faultLatch = none → ¬legalWidth n → step (issued (.access a v f n) s) = .refused .widthNotLegal

/-- 60_exceptions.md section 2: an access that breaks the flags rule and the bounds rule reports IllegalValue (the full form
is ReadAndWriteTogetherRaiseIllegalValue); the Classifier's check is the only one of `classify` and `decode`; the width
refusal is no error (the spec's own choice, D6; log entry 9); one operation reports one error, and the model's next step
then faults, with or without an operation pending (D11; log entry 4). -/
def Obligations.FlagsErrorComesBeforeBoundsError : Prop :=
  (∀ s a v (f : MemoryFlags) n t, s.faultLatch = none → f.read = true → f.write = true → ¬inBounds a n →
    step (issued (.access a v f n) s) = .next t → t.faultLatch = some ⟨.illegalValue, .memFlags⟩) ∧
  (∀ s w t e, s.faultLatch = none → step (issued (.classify w) s) = .next t ∨ step (issued (.decode w) s) = .next t →
    t.faultLatch = some e → e = ⟨.illegalValue, .classify⟩) ∧
  (∀ s a v f n, s.faultLatch = none → ¬legalWidth n → step (issued (.access a v f n) s) = .refused .widthNotLegal) ∧
  ∀ s t e, step s = .next t → t.faultLatch = some e → t.response = some (.fault e) ∧ step t = .fault (.runOver e)

/-- R178: a failing access is precise, a refused one changes nothing, a successful one changes only the written bytes, and
every access ends in a result, one error, or the width refusal. -/
def Obligations.EveryAccessIsPrecise : Prop :=
  ∀ s a v (f : MemoryFlags) (n : Int), s.faultLatch = none → s.bank.wf →
    (∃ m u, step (issued (.access a v f n) s) = .next { s with bank := m, response := some (.ok (.accessed u)) } ∧
      ∀ b : Nat, ¬(f.write = true ∧ a.toNat ≤ b ∧ (b : Int) < a.toNat + n) → bankByte m b = bankByte s.bank b) ∨
    (∃ k, (k = .illegalValue ∨ k = .outOfBounds) ∧
      ∃ site, takesError (step (issued (.access a v f n) s)) s ⟨k, site⟩) ∨
    (¬legalWidth n ∧ step (issued (.access a v f n) s) = .refused .widthNotLegal)

/-- 43_memory_unit.md, the table of the packed flags (the packing is the spec's own choice, D5). -/
def Obligations.PackedFlagsHaveTheirOutcomes : Prop :=
  ∀ s a v (p : BitVec 3) (n : Int), s.faultLatch = none → legalWidth n →
    if p = 0b011#3 ∨ p = 0b111#3 then
      takesError (step (issued (.access a v (flagsUnpack p) n) s)) s ⟨.illegalValue, .memFlags⟩
    else if ¬inBounds a n then
      takesError (step (issued (.access a v (flagsUnpack p) n) s)) s ⟨.outOfBounds, .memBounds⟩
    else if p = 0b001#3 ∨ p = 0b101#3 then
      step (issued (.access a v (flagsUnpack p) n) s) =
        .next { s with bank := memWrite s.bank a.toNat n.toNat v, response := some (.ok (.accessed a)) }
    else if p = 0b110#3 then
      step (issued (.access a v (flagsUnpack p) n) s) =
        .next { s with response := some (.ok (.accessed (memRead s.bank a.toNat n.toNat))) }
    else
      step (issued (.access a v (flagsUnpack p) n) s) = .next { s with response := some (.ok (.accessed a)) }

/-- 20_memory.md sections 3 and 5: at every address, aligned or not, a read after a write of the same width gives the
value's low bytes (alignment and ordering are the spec's own choices, D10, D18). -/
def Obligations.ReadAfterWriteReturnsTheValue : Prop :=
  ∀ s a v u (n : Int), s.faultLatch = none → s.bank.wf → legalWidth n → inBounds a n →
    ∃ m, Host.Core.run Sys2Proof.core 2
        (issued (.access a v ⟨true, false, false⟩ n) (issued (.access a u ⟨false, true, true⟩ n) s)) =
      .next { s with bank := m,
                     response := some (.ok (.accessed ((v.setWidth (8 * n.toNat)).setWidth 32))) }

/-- 20_memory.md section 5: after a run that ends well, every byte of the bank is the latest write to it among the
operations served, or what it was before them (sequential consistency is the spec's own choice, D18). -/
def Obligations.BankHoldsTheLatestWrites : Prop :=
  ∀ s t, s.bank.wf → s.faultLatch = none → endsWell s.requests.length s t →
    ∀ a, bankByte t.bank a = latestWrite a (bankByte s.bank a) s.requests

/-- 20_memory.md section 5, as an invariant of the step: what the operations already served have left at an address and
what the pending ones will write there make the same byte before and after every step that latches no error (sequential
consistency is the spec's own choice, D18; the list of pending operations is the model's, log entry 1). -/
def Obligations.EveryStepKeepsWhatTheHistoryLeaves : Prop :=
  ∀ s t, s.bank.wf → step s = .next t → t.faultLatch = none →
    t.bank.wf ∧ ∀ a, latestWrite a (bankByte t.bank a) t.requests = latestWrite a (bankByte s.bank a) s.requests

/-! ## Errors, runs and the interface -/

/-- 60_exceptions.md section 3: while FaultLatch is set no operation is admitted, and no instruction (D11). -/
def Obligations.LatchedFaultAdmitsNothing : Prop :=
  ∀ s e, s.faultLatch = some e → step s = .fault (.runOver e) ∧ ∀ i, exec i s = .fault (.runOver e)

/-- 60_exceptions.md section 3: a step that latches an error changes nothing else but the response and the served request,
and the error is one that section 1 lists (D11). -/
def Obligations.FatalErrorIsPrecise : Prop :=
  ∀ s t e, s.faultLatch = none → step s = .next t → t.faultLatch = some e →
    e ∈ raisedErrors ∧ ∃ r, s = issued r { s with requests := t.requests } ∧
      t = { s with requests := t.requests, faultLatch := some e, response := some (.fault e) }

/-- R206: the block never raises DivideByZero. -/
def Obligations.DivideByZeroIsNeverRaised : Prop :=
  ∀ s t e, s.faultLatch = none → step s = .next t → t.faultLatch = some e ∨ t.response = some (.fault e) →
    e.kind ≠ .divideByZero

/-- 70_reset_and_hazards.md sections 2 and 3: an admitted operation completes exactly when its request keeps the caller's
contract, and it ends without a fatal error exactly when the request raises none (the refusals and the latch are the spec's
own choices, D6, D11, D15). -/
def Obligations.OperationsCompleteWhenTheContractIsKept : Prop :=
  ∀ s r, s.faultLatch = none →
    ((∃ t, step (issued r s) = .next t) ↔ contractKept r) ∧
    ∀ t, step (issued r s) = .next t → (t.faultLatch = none ↔ errorFree r) ∧ t.requests = s.requests

/-- 70_reset_and_hazards.md section 2: a decode-family operation and an access commute (D26). -/
def Obligations.DecodeAndAccessCommute : Prop :=
  ∀ s r a v f n, s.faultLatch = none → (∀ a' v' f' n', r ≠ .access a' v' f' n') →
    ((∃ t, endsWell 2 (issued r (issued (.access a v f n) s)) t) ↔
      ∃ u, endsWell 2 (issued (.access a v f n) (issued r s)) u) ∧
    ∀ t u, endsWell 2 (issued r (issued (.access a v f n) s)) t →
      endsWell 2 (issued (.access a v f n) (issued r s)) u →
      t.bank = u.bank ∧ t.requests = u.requests

/-- 10_state.md section 1: nothing but the bank and FaultLatch persists from one operation to the next; what an operation
does never depends on an earlier response (the response field is the model's own, log entry 2). -/
def Obligations.NoOperationReadsAnEarlierResponse : Prop :=
  ∀ s p, step { s with response := p } = step s

/-- 70_reset_and_hazards.md section 1: decoding a word of the unwritten bank ends the run (the spec's own derivation). -/
def Obligations.DecodingUnwrittenMemoryEndsTheRun : Prop :=
  ∀ a : Word, inBounds a 4 →
    ∃ t w, step (issued (.access a 0 ⟨false, true, true⟩ 4) State.reset) = .next t ∧
      t.response = some (.ok (.accessed w)) ∧
      takesError (step (issued (.decode w) t)) t ⟨.illegalValue, .classify⟩

/-- The model's choice (log entry 3): a step with no operation pending changes nothing and answers nothing. -/
def Obligations.IdleStepChangesNothing : Prop :=
  ∀ s, s.faultLatch = none → s.requests = [] → step s = .next { s with response := none }

/-- 10_state.md section 2, 60_exceptions.md section 1: the bit codes (the spec's own choices, D5, D12, D13, D23). -/
def Obligations.InterfaceCodesAreAsTabulated : Prop :=
  (∀ f, flagsUnpack (flagsPack f) = f) ∧ (∀ p, flagsPack (flagsUnpack p) = p) ∧
  (∀ f : MemoryFlags, (flagsPack f).getLsbD 0 = f.write ∧ (flagsPack f).getLsbD 1 = f.read ∧
    (flagsPack f).getLsbD 2 = f.writeback) ∧
  errorCode none = 0 ∧ errorCode (some .illegalValue) = 1 ∧ errorCode (some .outOfBounds) = 2 ∧
  errorCode (some .divideByZero) = 3 ∧
  siteCode .classify = 0 ∧ siteCode .memFlags = 1 ∧ siteCode .memBounds = 2 ∧
  formatTag .r = 0 ∧ formatTag .i = 1 ∧ formatTag .s = 2 ∧ formatTag .b = 3 ∧ formatTag .u = 4 ∧ formatTag .j = 5

/-! ## Consumer views -/

/-- 30_encoding.md section 5: `li`'s two immediates rebuild the constant (general knowledge in the spec). -/
def Obligations.LiSplitsRebuildTheConstant : Prop :=
  ∀ imm : Word, upperOf (liHigh imm) + (liLow imm).signExtend 32 = imm

/-- 20_memory.md section 6 (informative, general knowledge in the spec): a store word's access followed by the load word's
access of the same width and address answers the stored register's low bytes. -/
def Obligations.ConsumerStoreThenLoadRoundTrip : Prop :=
  ∀ s (x : List Word) (imm12 : Word) (rs2 rs1 rd : RegIndex) (code : Funct3),
    code ∈ [0#3, 1#3, 2#3] → s.faultLatch = none → s.bank.wf → x.length = 32 →
    inBounds (x.getD rs1.toNat 0 + imm12) (2 ^ code.toNat) →
    ∃ q r t, consumerAccess x ⟨.store, .s imm12 rs2 rs1 code⟩ = some q ∧
      consumerAccess x ⟨.load, .i imm12 rs1 rd code⟩ = some r ∧
      endsWell 2 (issued q (issued r s)) t ∧
      t.response = some (.ok (.accessed (((x.getD rs2.toNat 0).setWidth (8 * 2 ^ code.toNat)).setWidth 32)))
end

