-- ==== Sys2Proof/Laws/Decode.lean ====
section
/-! SUPPORT. Small facts about the opcode map, the extractors and the decoder. -/

namespace Sys2Proof

/-- Each opcode's own code classifies as that opcode. -/
@[simp] theorem classifyCode_opcodeCode (o : Opcode) : classifyCode (opcodeCode o) = .ok o := by
  cases o <;> decide

/-- The low seven bits of a word that ends in seven bits. -/
theorem opcode_append {n : Nat} (hi : BitVec n) (c : OpcodeBits) (h : n + 7 = 32) :
    Extract.opcode ((hi ++ c).cast h) = c := by
  obtain rfl : n = 25 := by omega
  refine BitVec.eq_of_getLsbD_eq fun k hk => ?_
  have := BitVec.getLsbD_append (x := hi) (y := c) (i := k)
  simpa [Extract.opcode, hk] using this

theorem opcodeOf_extractInstr (o : Opcode) (w : Word) : opcodeOf (extractInstr o w) = o := by
  cases o <;> rfl

theorem decodeWord_of_classify {w : Word} {o : Opcode} (h : classify w = .ok o) :
    decodeWord w = .ok (extractInstr o w) := by
  simp [decodeWord, h]

/-- A word decodes exactly when it classifies, and then to the fields of its opcode. -/
theorem decodeWord_ok_iff {w : Word} {i : Instr} :
    decodeWord w = .ok i ↔ ∃ o, classify w = .ok o ∧ i = extractInstr o w := by
  cases h : classify w <;> simp [decodeWord, h, eq_comm]

/-! ## Where the bits of the assembled immediates come from -/

theorem getLsbD_immSRaw (w : Word) (k : Nat) :
    (Extract.immSRaw w).getLsbD k =
      if k < 5 then w.getLsbD (7 + k) else decide (k < 12) && w.getLsbD (20 + k) := by
  unfold Extract.immSRaw
  grind

theorem getLsbD_immBRaw (w : Word) (k : Nat) :
    (Extract.immBRaw w).getLsbD k =
      if k = 0 then false else if k < 5 then w.getLsbD (7 + k) else if k < 11 then w.getLsbD (20 + k)
      else if k = 11 then w.getLsbD 7 else decide (k = 12) && w.getLsbD 31 := by
  unfold Extract.immBRaw
  grind

theorem getLsbD_immJRaw (w : Word) (k : Nat) :
    (Extract.immJRaw w).getLsbD k =
      if k = 0 then false else if k < 11 then w.getLsbD (20 + k) else if k = 11 then w.getLsbD 20
      else if k < 20 then w.getLsbD k else decide (k = 20) && w.getLsbD 31 := by
  unfold Extract.immJRaw
  grind

theorem getLsbD_immU (w : Word) (k : Nat) :
    (Extract.immU w).getLsbD k = (decide (12 ≤ k) && w.getLsbD k) := by
  by_cases hk : k < 32
  · have hmask : ∀ j : Fin 32, (0xFFFFF000#32).getLsbD j = decide (12 ≤ j.val) := by decide
    rw [Extract.immU, BitVec.getLsbD_and, hmask ⟨k, hk⟩, Bool.and_comm]
  · simp [BitVec.getLsbD_of_ge _ k (Nat.not_lt.1 hk)]

/-! ## Where the encoder puts each bit, format by format -/

theorem getLsbD_encodeR (funct7 : Funct7) (rs2 rs1 : RegIndex) (funct3 : Funct3) (rd : RegIndex) (o : Opcode) (k : Nat) :
    (encodeR funct7 rs2 rs1 funct3 rd o).getLsbD k =
      if k < 7 then (opcodeCode o).getLsbD k else if k < 12 then rd.getLsbD (k - 7)
      else if k < 15 then funct3.getLsbD (k - 12) else if k < 20 then rs1.getLsbD (k - 15)
      else if k < 25 then rs2.getLsbD (k - 20) else funct7.getLsbD (k - 25) := by
  refine (BitVec.getLsbD_append).trans ?_
  simp only [BitVec.getLsbD_append]
  grind

theorem getLsbD_encodeI (imm : BitVec 12) (rs1 : RegIndex) (funct3 : Funct3) (rd : RegIndex) (o : Opcode) (k : Nat) :
    (encodeI imm rs1 funct3 rd o).getLsbD k =
      if k < 7 then (opcodeCode o).getLsbD k else if k < 12 then rd.getLsbD (k - 7)
      else if k < 15 then funct3.getLsbD (k - 12) else if k < 20 then rs1.getLsbD (k - 15)
      else imm.getLsbD (k - 20) := by
  refine (BitVec.getLsbD_append).trans ?_
  simp only [BitVec.getLsbD_append]
  grind

theorem getLsbD_encodeS (imm : BitVec 12) (rs2 rs1 : RegIndex) (funct3 : Funct3) (o : Opcode) (k : Nat) :
    (encodeS imm rs2 rs1 funct3 o).getLsbD k =
      if k < 7 then (opcodeCode o).getLsbD k else if k < 12 then imm.getLsbD (k - 7)
      else if k < 15 then funct3.getLsbD (k - 12) else if k < 20 then rs1.getLsbD (k - 15)
      else if k < 25 then rs2.getLsbD (k - 20) else imm.getLsbD (k - 20) := by
  refine (BitVec.getLsbD_append).trans ?_
  simp only [BitVec.getLsbD_append, BitVec.getLsbD_extractLsb']
  grind

theorem getLsbD_encodeB (imm : BitVec 13) (rs2 rs1 : RegIndex) (funct3 : Funct3) (o : Opcode) (k : Nat) :
    (encodeB imm rs2 rs1 funct3 o).getLsbD k =
      if k < 7 then (opcodeCode o).getLsbD k
      else if k < 8 then imm.getLsbD (4 + k) else if k < 12 then imm.getLsbD (k - 7)
      else if k < 15 then funct3.getLsbD (k - 12) else if k < 20 then rs1.getLsbD (k - 15)
      else if k < 25 then rs2.getLsbD (k - 20) else if k < 31 then imm.getLsbD (k - 20)
      else decide (k = 31) && imm.getLsbD 12 := by
  refine (BitVec.getLsbD_append).trans ?_
  simp only [BitVec.getLsbD_append, BitVec.getLsbD_extractLsb']
  grind

theorem getLsbD_encodeU (imm : Word) (rd : RegIndex) (o : Opcode) (k : Nat) :
    (encodeU imm rd o).getLsbD k =
      if k < 7 then (opcodeCode o).getLsbD k else if k < 12 then rd.getLsbD (k - 7) else imm.getLsbD k := by
  refine (BitVec.getLsbD_append).trans ?_
  simp only [BitVec.getLsbD_append, BitVec.getLsbD_extractLsb']
  grind

theorem getLsbD_encodeJ (imm : BitVec 21) (rd : RegIndex) (o : Opcode) (k : Nat) :
    (encodeJ imm rd o).getLsbD k =
      if k < 7 then (opcodeCode o).getLsbD k
      else if k < 12 then rd.getLsbD (k - 7) else if k < 20 then imm.getLsbD k
      else if k < 21 then imm.getLsbD 11 else if k < 31 then imm.getLsbD (k - 20)
      else decide (k = 31) && imm.getLsbD 20 := by
  refine (BitVec.getLsbD_append).trans ?_
  simp only [BitVec.getLsbD_append, BitVec.getLsbD_extractLsb']
  grind

/-- The extractors cut well-formed instructions only. -/
theorem extractInstr_wellFormed (o : Opcode) (w : Word) : WellFormed (extractInstr o w) := by
  have hU : upperImm (Extract.immU w) := BitVec.eq_of_getLsbD_eq fun k hk => by
    simp [getLsbD_immU, Nat.not_le.2 hk]
  cases o <;> simp only [extractInstr, WellFormed, evenImm, getLsbD_immBRaw, getLsbD_immJRaw] <;>
    first | exact hU | rfl

end Sys2Proof
end

