-- ==== Sys2Proof/Laws/Memory.lean ====
section
/-! SUPPORT. The MemoryBank: reading after writing, and the canonical form that every operation keeps. -/

namespace Sys2Proof.Machine

/-- Below every listed address, the bank reads as unlisted. -/
theorem bankByte_of_lt {m : Memory} {a : Nat} (h : ∀ c ∈ m, a < c.1) : bankByte m a = unlistedByte := by
  induction m with
  | nil => rfl
  | cons c m ih =>
    have hc := h c (by simp)
    simp only [bankByte]
    rw [if_neg (by omega), ih fun d hd => h d (by simp [hd])]

theorem bankByte_listed (a : Nat) (b : Byte) (m : Memory) (x : Nat) (h : ∀ c ∈ m, a < c.1) :
    bankByte (listed a b m) x = if x = a then b else bankByte m x := by
  unfold listed
  by_cases hb : b = unlistedByte
  · by_cases hx : x = a
    · simp [hb, hx, bankByte_of_lt h]
    · simp [hb, hx]
  · simp [hb, bankByte, eq_comm]

/-- Reading after one byte is written: the byte at its address, and every other address as before. -/
theorem bankByte_setByte {m : Memory} (hm : m.wf) (a : Nat) (b : Byte) (x : Nat) :
    bankByte (setByte m a b) x = if x = a then b else bankByte m x := by
  obtain ⟨hp, -⟩ := hm
  induction m with
  | nil => exact bankByte_listed a b [] x (by simp)
  | cons c m ih =>
    obtain ⟨k, v⟩ := c
    rw [List.pairwise_cons] at hp
    simp only [setByte]
    split
    next hlt =>
      refine bankByte_listed a b _ x fun d hd => ?_
      rcases List.mem_cons.1 hd with rfl | hd
      · exact hlt
      · exact lt_trans hlt (hp.1 d hd)
    next hlt =>
      split
      next heq =>
        subst heq
        rw [bankByte_listed a b m x hp.1]
        by_cases hx : x = a
        · simp [hx]
        · simp [hx, bankByte, Ne.symm hx]
      next hne =>
        simp only [bankByte, ih hp.2]
        by_cases hx : k = x
        · subst hx; simp [Ne.symm hne]
        · simp [hx]

theorem mem_setByte {m : Memory} {a : Nat} {b : Byte} {c : Host.Cell} (h : c ∈ setByte m a b) :
    c = (a, b) ∧ b ≠ unlistedByte ∨ c ∈ m := by
  induction m with
  | nil =>
    simp only [setByte, listed] at h
    split at h
    · simp at h
    · exact .inl ⟨by simpa using h, ‹_›⟩
  | cons d m ih =>
    obtain ⟨k, v⟩ := d
    simp only [setByte, listed] at h
    split at h
    · split at h
      · exact .inr h
      · rcases List.mem_cons.1 h with rfl | h
        · exact .inl ⟨rfl, ‹_›⟩
        · exact .inr h
    · split at h
      · split at h
        · exact .inr (by simp [h])
        · rcases List.mem_cons.1 h with rfl | h
          · exact .inl ⟨rfl, ‹_›⟩
          · exact .inr (by simp [h])
      · rcases List.mem_cons.1 h with rfl | h
        · exact .inr (by simp)
        · rcases ih h with h | h
          · exact .inl h
          · exact .inr (by simp [h])

theorem listed_wf {a : Nat} {b : Byte} {m : Memory} (hm : m.wf) (h : ∀ c ∈ m, a < c.1) : (listed a b m).wf := by
  unfold listed
  split
  · exact hm
  · refine ⟨List.pairwise_cons.2 ⟨h, hm.1⟩, fun c hc => ?_⟩
    rcases List.mem_cons.1 hc with rfl | hc
    · assumption
    · exact hm.2 c hc

theorem Memory.wf_tail {c : Host.Cell} {m : Memory} (h : Memory.wf (c :: m)) : m.wf :=
  ⟨(List.pairwise_cons.1 h.1).2, fun d hd => h.2 d (by simp [hd])⟩

/-- Writing one byte keeps the canonical form. -/
theorem setByte_wf {m : Memory} (hm : m.wf) (a : Nat) (b : Byte) : (setByte m a b).wf := by
  induction m with
  | nil => exact listed_wf hm (by simp)
  | cons c m ih =>
    obtain ⟨k, v⟩ := c
    have hp := (List.pairwise_cons.1 hm.1).1
    simp only [setByte]
    split
    next hlt =>
      refine listed_wf hm fun d hd => ?_
      rcases List.mem_cons.1 hd with rfl | hd
      · exact hlt
      · exact lt_trans hlt (hp d hd)
    next hlt =>
      split
      next heq => subst heq; exact listed_wf (Memory.wf_tail hm) hp
      next hne =>
        have htail := ih (Memory.wf_tail hm)
        refine ⟨List.pairwise_cons.2 ⟨fun d hd => ?_, htail.1⟩, fun d hd => ?_⟩
        · rcases mem_setByte hd with ⟨rfl, -⟩ | hd
          · simp only; omega
          · exact hp d hd
        · rcases List.mem_cons.1 hd with rfl | hd
          · exact hm.2 _ (by simp)
          · exact htail.2 d hd

theorem setByte_inBank {m : Memory} (hm : m.inBank) {a : Nat} (ha : a < Config.bankSize) (b : Byte) :
    (setByte m a b).inBank := by
  intro c hc
  rcases mem_setByte hc with ⟨rfl, -⟩ | hc
  · exact ha
  · exact hm c hc

/-- MemWrite keeps the canonical form. -/
theorem memWrite_wf {m : Memory} (hm : m.wf) (a n : Nat) (v : Word) : (memWrite m a n v).wf := by
  induction n with
  | zero => exact hm
  | succ n ih => exact setByte_wf ih _ _

/-- MemWrite lists only bytes that exist, where the write fits the bank. -/
theorem memWrite_inBank {m : Memory} (hm : m.inBank) {a n : Nat} (h : a + n ≤ Config.bankSize) (v : Word) :
    (memWrite m a n v).inBank := by
  induction n with
  | zero => exact hm
  | succ n ih => exact setByte_inBank (ih (by omega)) (by omega) _

end Sys2Proof.Machine
end

