-- ==== Sys2Proof/Laws/State.lean ====
section
/-! SUPPORT. What each update of one field does to each field. -/

namespace Sys2Proof.Machine

variable (s : State) (m : Memory) (l : Option FatalError) (rs : List Request) (r : Option Response) (q : Request)

@[simp] theorem State.withBank_bank : (s.withBank m).bank = m := rfl
@[simp] theorem State.withBank_faultLatch : (s.withBank m).faultLatch = s.faultLatch := rfl
@[simp] theorem State.withBank_requests : (s.withBank m).requests = s.requests := rfl
@[simp] theorem State.withBank_response : (s.withBank m).response = s.response := rfl

@[simp] theorem State.withLatch_bank : (s.withLatch l).bank = s.bank := rfl
@[simp] theorem State.withLatch_faultLatch : (s.withLatch l).faultLatch = l := rfl
@[simp] theorem State.withLatch_requests : (s.withLatch l).requests = s.requests := rfl
@[simp] theorem State.withLatch_response : (s.withLatch l).response = s.response := rfl

@[simp] theorem State.withRequests_bank : (s.withRequests rs).bank = s.bank := rfl
@[simp] theorem State.withRequests_faultLatch : (s.withRequests rs).faultLatch = s.faultLatch := rfl
@[simp] theorem State.withRequests_requests : (s.withRequests rs).requests = rs := rfl
@[simp] theorem State.withRequests_response : (s.withRequests rs).response = s.response := rfl

@[simp] theorem State.withResponse_bank : (s.withResponse r).bank = s.bank := rfl
@[simp] theorem State.withResponse_faultLatch : (s.withResponse r).faultLatch = s.faultLatch := rfl
@[simp] theorem State.withResponse_requests : (s.withResponse r).requests = s.requests := rfl
@[simp] theorem State.withResponse_response : (s.withResponse r).response = r := rfl

@[simp] theorem State.issueNext_bank : (s.issueNext q).bank = s.bank := rfl
@[simp] theorem State.issueNext_faultLatch : (s.issueNext q).faultLatch = s.faultLatch := rfl
@[simp] theorem State.issueNext_requests : (s.issueNext q).requests = q :: s.requests := rfl
@[simp] theorem State.issueNext_response : (s.issueNext q).response = s.response := rfl

@[simp] theorem State.issueNext_withRequests : (s.issueNext q).withRequests s.requests = s := rfl

end Sys2Proof.Machine
end

