-- ==== Sys2Proof/Laws/Ops.lean ====
section
/-! SUPPORT. What the shared operations can do: one lemma says when each answers what. -/

namespace Sys2Proof.Machine

variable {s t : State} {e : FatalError}

theorem ifAdmitted_of_none (h : s.faultLatch = none) (o : Outcome) : ifAdmitted s o = o := by
  simp [ifAdmitted, h]

theorem ifAdmitted_of_some (h : s.faultLatch = some e) (o : Outcome) : ifAdmitted s o = .fault (.runOver e) := by
  simp [ifAdmitted, h]

/-- An admitted operation answers what it answers, and only with no fault latched. -/
theorem ifAdmitted_next_iff {o : Outcome} : ifAdmitted s o = .next t ↔ s.faultLatch = none ∧ o = .next t := by
  cases h : s.faultLatch <;> simp [ifAdmitted, h]

theorem ifAdmitted_refused_iff {o : Outcome} {r : Refusal} :
    ifAdmitted s o = .refused r ↔ s.faultLatch = none ∧ o = .refused r := by
  cases h : s.faultLatch <;> simp [ifAdmitted, h]

theorem respond_of_none (h : s.faultLatch = none) (r : Result) :
    respond r s = .next (s.withResponse (some (.ok r))) := ifAdmitted_of_none h _

theorem respond_next_iff {r : Result} :
    respond r s = .next t ↔ s.faultLatch = none ∧ t = s.withResponse (some (.ok r)) := by
  rw [respond, ifAdmitted_next_iff, Host.Outcome.next.injEq, eq_comm (a := t)]

theorem raise_of_none (h : s.faultLatch = none) (e : FatalError) :
    raise e s = .next ((s.withLatch (some e)).withResponse (some (.fault e))) := ifAdmitted_of_none h _

theorem raise_next_iff :
    raise e s = .next t ↔ s.faultLatch = none ∧ t = (s.withLatch (some e)).withResponse (some (.fault e)) := by
  rw [raise, ifAdmitted_next_iff, Host.Outcome.next.injEq, eq_comm (a := t)]

theorem refuse_of_none (h : s.faultLatch = none) (r : Refusal) : refuse r s = .refused r := ifAdmitted_of_none h _

@[simp] theorem refuse_ne_next {r : Refusal} : refuse r s ≠ .next t := by
  simp [refuse, ifAdmitted_next_iff]

theorem idle_next_iff : idle s = .next t ↔ s.faultLatch = none ∧ t = s.withResponse none := by
  rw [idle, ifAdmitted_next_iff, Host.Outcome.next.injEq, eq_comm (a := t)]

end Sys2Proof.Machine
end

