-- ==== Sys2Proof/Laws/PerInstr.lean ====
section
/-! SUPPORT. Per instruction: the word of an instruction is a word of its opcode (30_encoding.md R61, R70). -/

namespace Sys2Proof.Laws.EncodeClassifies

/-- The encoder puts the opcode where the Classifier reads it. -/
def Statement (i : Instr) : Prop := classify (encode i) = .ok (opcodeOf i)

/-- A word that ends in an opcode's code classifies as that opcode. -/
theorem classify_append {n : Nat} (hi : BitVec n) (o : Opcode) (h : n + 7 = 32) :
    classify ((hi ++ opcodeCode o).cast h) = .ok o := by
  rw [classify, opcode_append, classifyCode_opcodeCode]

theorem load (imm : BitVec 12) (rs1 rd : RegIndex) (funct3 : Funct3) : Statement (.load imm rs1 rd funct3) :=
  classify_append (imm ++ rs1 ++ funct3 ++ rd) .load rfl
theorem opImm (imm : BitVec 12) (rs1 rd : RegIndex) (funct3 : Funct3) : Statement (.opImm imm rs1 rd funct3) :=
  classify_append (imm ++ rs1 ++ funct3 ++ rd) .opImm rfl
theorem auipc (imm : Word) (rd : RegIndex) : Statement (.auipc imm rd) :=
  classify_append (imm.extractLsb' 12 20 ++ rd) .auipc rfl
theorem store (imm : BitVec 12) (rs2 rs1 : RegIndex) (funct3 : Funct3) : Statement (.store imm rs2 rs1 funct3) :=
  classify_append (imm.extractLsb' 5 7 ++ rs2 ++ rs1 ++ funct3 ++ imm.extractLsb' 0 5) .store rfl
theorem op (funct7 : Funct7) (rs2 rs1 rd : RegIndex) (funct3 : Funct3) : Statement (.op funct7 rs2 rs1 rd funct3) :=
  classify_append (funct7 ++ rs2 ++ rs1 ++ funct3 ++ rd) .op rfl
theorem lui (imm : Word) (rd : RegIndex) : Statement (.lui imm rd) :=
  classify_append (imm.extractLsb' 12 20 ++ rd) .lui rfl
theorem branch (imm : BitVec 13) (rs2 rs1 : RegIndex) (funct3 : Funct3) : Statement (.branch imm rs2 rs1 funct3) :=
  classify_append (imm.extractLsb' 12 1 ++ imm.extractLsb' 5 6 ++ rs2 ++ rs1 ++ funct3 ++ imm.extractLsb' 1 4 ++
    imm.extractLsb' 11 1) .branch rfl
theorem jalr (imm : BitVec 12) (rs1 rd : RegIndex) (funct3 : Funct3) : Statement (.jalr imm rs1 rd funct3) :=
  classify_append (imm ++ rs1 ++ funct3 ++ rd) .jalr rfl
theorem jal (imm : BitVec 21) (rd : RegIndex) : Statement (.jal imm rd) :=
  classify_append (imm.extractLsb' 20 1 ++ imm.extractLsb' 1 10 ++ imm.extractLsb' 11 1 ++ imm.extractLsb' 12 8 ++ rd)
    .jal rfl
theorem system (imm : BitVec 12) (rs1 rd : RegIndex) (funct3 : Funct3) : Statement (.system imm rs1 rd funct3) :=
  classify_append (imm ++ rs1 ++ funct3 ++ rd) .system rfl

end Sys2Proof.Laws.EncodeClassifies
end

