-- ==== Sys2Proof/Laws/SignExtend.lean ====
section
/-! SUPPORT. The block's sign extension against the library's, bit by bit. -/

namespace Sys2Proof.Machine

/-- R120's arithmetic, one bit at a time: below L the value's bit, from L on the value's own bit or the sign. -/
theorem getElem_signExtendBits (v : Word) (L k : Nat) (hL : L < 32) (hk : k < 32) :
    (signExtendBits v L)[k] = (v[k] || (decide (L ≤ k) && v.getLsbD (L - 1))) := by
  have hones : (0xFFFFFFFF#32)[k - L] = true := by
    have h : ∀ j : Fin 32, (0xFFFFFFFF#32).getLsbD j = true := by decide
    exact h ⟨k - L, by omega⟩
  have hL' : L ≠ 32 := by omega
  by_cases hs : v.getLsbD (L - 1) <;> by_cases h : k < L
  · simp [signExtendBits, hL', hs, h, Nat.not_le.2 h]
  · simp [signExtendBits, hL', hs, h, Nat.not_lt.1 h, hones]
  · simp [signExtendBits, hL', hs]
  · simp [signExtendBits, hL', hs]

/-- The router extends a raw immediate of fewer than 32 bits as a two's-complement number. -/
theorem signExtendBits_setWidth {n : Nat} (raw : BitVec n) (hn : n < 32) :
    signExtendBits (raw.setWidth 32) n = raw.signExtend 32 := by
  refine BitVec.eq_of_getElem_eq fun k hk => ?_
  rw [getElem_signExtendBits _ _ _ hn hk, BitVec.getElem_signExtend]
  by_cases h : k < n
  · simp [h, Nat.not_le.2 h]
  · have hk' : n ≤ k := Nat.not_lt.1 h
    simp [h, hk', BitVec.msb_eq_getLsbD_last, show n - 1 < 32 by omega]

end Sys2Proof.Machine
end

