-- ==== Sys2Proof/Laws/Step.lean ====
section
/-! SUPPORT. What a step can do, said once: exec, `access`, an operation, a step. -/

namespace Sys2Proof.Machine

variable {s t : State}

/-! ## exec -/

/-- The variant that an instruction's meaning emits. -/
def emittedVariant : Instr → Variant
  | .load imm rs1 rd funct3 => .i (routeIS imm) rs1 rd funct3
  | .opImm imm rs1 rd funct3 => .i (routeIS imm) rs1 rd funct3
  | .auipc imm rd => .u (routeU imm) rd
  | .store imm rs2 rs1 funct3 => .s (routeIS imm) rs2 rs1 funct3
  | .op funct7 rs2 rs1 rd funct3 => .r funct7 rs2 rs1 rd funct3
  | .lui imm rd => .u (routeU imm) rd
  | .branch imm rs2 rs1 funct3 => .b (routeB imm) rs2 rs1 funct3
  | .jalr imm rs1 rd funct3 => .i (routeIS imm) rs1 rd funct3
  | .jal imm rd => .j (routeJ imm) rd
  | .system imm rs1 rd funct3 => .i (routeIS imm) rs1 rd funct3

/-- Every meaning emits its opcode and its variant. -/
theorem exec_eq_emit (i : Instr) (s : State) : exec i s = emit (opcodeOf i) (emittedVariant i) s := by
  cases i <;> rfl

/-- Whether and where exec goes on, for every instruction at once. -/
theorem exec_next_iff {i : Instr} :
    exec i s = .next t ↔
      s.faultLatch = none ∧ t = s.withResponse (some (.ok (.decoded ⟨opcodeOf i, emittedVariant i⟩))) := by
  rw [exec_eq_emit, emit, respond_next_iff]

/-! ## access -/

/-- What `access` can do when it goes on: report the flags, report the bounds, or take one of the three paths. -/
theorem serveAccess_next_cases {a v : Word} {f : MemoryFlags} {n : Int} (h : serveAccess a v f n s = .next t) :
    s.faultLatch = none ∧ ∃ w, widthOfCount n = some w ∧
      ((flagsConflict f = true ∧
          t = (s.withLatch (some ⟨.illegalValue, .memFlags⟩)).withResponse (some (.fault ⟨.illegalValue, .memFlags⟩))) ∨
        (flagsConflict f = false ∧ accessFits a w = false ∧
          t = (s.withLatch (some ⟨.outOfBounds, .memBounds⟩)).withResponse (some (.fault ⟨.outOfBounds, .memBounds⟩))) ∨
        (flagsConflict f = false ∧ accessFits a w = true ∧ f.read = true ∧
          t = s.withResponse (some (.ok (.accessed
            (if f.writeback then memRead s.bank a.toNat (widthBytes w) else a))))) ∨
        (accessFits a w = true ∧ f.read = false ∧ f.write = true ∧
          t = (s.withBank (memWrite s.bank a.toNat (widthBytes w) v)).withResponse (some (.ok (.accessed a)))) ∨
        (accessFits a w = true ∧ f.read = false ∧ f.write = false ∧
          t = s.withResponse (some (.ok (.accessed a))))) := by
  unfold serveAccess at h
  split at h
  · simp at h
  next w hw =>
    split at h
    next hc =>
      obtain ⟨hl, rfl⟩ := raise_next_iff.1 h
      exact ⟨hl, w, hw, .inl ⟨hc, rfl⟩⟩
    next hc =>
      have hc := Bool.not_eq_true _ ▸ hc
      split at h
      next hf =>
        unfold accessPath at h
        split at h
        next hr =>
          obtain ⟨hl, rfl⟩ := respond_next_iff.1 h
          exact ⟨hl, w, hw, .inr (.inr (.inl ⟨hc, hf, hr, rfl⟩))⟩
        next hr =>
          have hr := Bool.not_eq_true _ ▸ hr
          split at h
          next hwr =>
            obtain ⟨hl, rfl⟩ := respond_next_iff.1 h
            exact ⟨hl, w, hw, .inr (.inr (.inr (.inl ⟨hf, hr, hwr, rfl⟩)))⟩
          next hwr =>
            have hwr := Bool.not_eq_true _ ▸ hwr
            obtain ⟨hl, rfl⟩ := respond_next_iff.1 h
            exact ⟨hl, w, hw, .inr (.inr (.inr (.inr ⟨hf, hr, hwr, rfl⟩)))⟩
      next hf =>
        have hf := Bool.not_eq_true _ ▸ hf
        obtain ⟨hl, rfl⟩ := raise_next_iff.1 h
        exact ⟨hl, w, hw, .inr (.inl ⟨hc, hf, rfl⟩)⟩

/-! ## The decode family -/

/-- What `decode` can do when it goes on: emit the instruction, or raise IllegalValue. -/
theorem serveDecode_next_cases {w : Word} (h : serveDecode w s = .next t) :
    s.faultLatch = none ∧
      ((∃ o, classify w = .ok o ∧
          t = s.withResponse (some (.ok (.decoded ⟨o, emittedVariant (extractInstr o w)⟩)))) ∨
        ((∃ e, classify w = .error e) ∧
          t = (s.withLatch (some ⟨.illegalValue, .classify⟩)).withResponse (some (.fault ⟨.illegalValue, .classify⟩)))) := by
  unfold serveDecode at h
  cases hc : classify w with
  | ok o =>
    rw [decodeWord_of_classify hc] at h
    obtain ⟨hl, rfl⟩ := exec_next_iff.1 h
    exact ⟨hl, .inl ⟨o, rfl, by rw [opcodeOf_extractInstr]⟩⟩
  | error e =>
    simp only [decodeWord, hc] at h
    obtain ⟨hl, rfl⟩ := raise_next_iff.1 h
    exact ⟨hl, .inr ⟨⟨e, rfl⟩, rfl⟩⟩

/-- What `classify` can do when it goes on. -/
theorem serveClassify_next_cases {w : Word} (h : serveClassify w s = .next t) :
    s.faultLatch = none ∧
      ((∃ o, classify w = .ok o ∧ t = s.withResponse (some (.ok (.classified o)))) ∨
        ((∃ e, classify w = .error e) ∧
          t = (s.withLatch (some ⟨.illegalValue, .classify⟩)).withResponse (some (.fault ⟨.illegalValue, .classify⟩)))) := by
  unfold serveClassify at h
  split at h
  next o ho =>
    obtain ⟨hl, rfl⟩ := respond_next_iff.1 h
    exact ⟨hl, .inl ⟨o, ho, rfl⟩⟩
  next e he =>
    obtain ⟨hl, rfl⟩ := raise_next_iff.1 h
    exact ⟨hl, .inr ⟨⟨e, he⟩, rfl⟩⟩

/-- `sign_extend` goes on exactly when it is not refused. -/
theorem serveSignExtend_next_iff {v : Word} {l : Int} :
    serveSignExtend v l s = .next t ↔
      s.faultLatch = none ∧ ∃ u, signExtend v l = .ok u ∧ t = s.withResponse (some (.ok (.extended u))) := by
  unfold serveSignExtend
  split
  next u hu => simp [respond_next_iff, hu]
  next r hr => simp [hr]

/-! ## One step -/

theorem step_issueNext (s : State) (r : Request) : step (s.issueNext r) = serve r s := rfl

/-- A step is idle or serves the oldest request. -/
theorem step_cases (s : State) :
    (s.requests = [] ∧ step s = idle s) ∨
      ∃ r rest, s.requests = r :: rest ∧ step s = serve r (s.withRequests rest) := by
  unfold step serveOldest
  cases h : s.requests with
  | nil => exact .inl ⟨rfl, rfl⟩
  | cons r rest => exact .inr ⟨r, rest, rfl, rfl⟩

/-! ## Runs -/

/-- A run of one more step goes on from the step's next state. -/
theorem run_succ_of_next (k : Nat) (h : step s = .next t) :
    Host.Core.run Sys2Proof.core (k + 1) s = Host.Core.run Sys2Proof.core k t := by
  have hcore : Host.Core.step Sys2Proof.core s = .next t := h
  simp only [Host.Core.run, hcore]

end Sys2Proof.Machine
end

