-- ==== Sys2Proof/Tests/Slice0.lean ====
section
/-! SUPPORT. Tests on the spec's own words and tables (95_test_vectors.md, 43_memory_unit.md R177), and for each statement with
hypotheses a concrete state and operands that meet them. Every expected value is the spec's. -/

namespace Sys2Proof.Tests

open Sys2Proof Sys2Proof.Machine

/-! ## Helpers -/

/-- The state at the start of the V7 vectors: bytes 100..103 are EF BE AD DE. -/
def bankV7 : State := { State.reset with bank := [(100, 0xEF), (101, 0xBE), (102, 0xAD), (103, 0xDE)] }

/-- A state in which a fatal error is latched. -/
def latchedState : State :=
  { State.reset with faultLatch := some ⟨.illegalValue, .classify⟩, response := some (.fault ⟨.illegalValue, .classify⟩) }

def noFlags : MemoryFlags := ⟨false, false, false⟩
def flagsW : MemoryFlags := ⟨true, false, false⟩
def flagsR : MemoryFlags := ⟨false, true, false⟩
def flagsRW : MemoryFlags := ⟨true, true, false⟩
def flagsRWb : MemoryFlags := ⟨false, true, true⟩

/-- What the step that serves `r` responds. -/
def answer (s : State) (r : Request) : Option Response := (nextOf (step (issued r s))).bind (·.response)

/-- The value that an access answers, if it does. -/
def accessValue (s : State) (a : Word) (v : Word) (f : MemoryFlags) (n : Int) : Option Word :=
  match answer s (.access a v f n) with
  | some (.ok (.accessed w)) => some w
  | _ => none

/-- The error that the step that serves `r` latches, if it does. -/
def latched (s : State) (r : Request) : Option FatalError := (nextOf (step (issued r s))).bind (·.faultLatch)

/-- Why the step that serves `r` is refused, if it is. -/
def refusal (s : State) (r : Request) : Option Refusal := refusalOf (step (issued r s))

/-- The bytes 100..103 after the step that serves `r`. -/
def bytes100 (s : State) (r : Request) : Option (List Byte) :=
  (nextOf (step (issued r s))).map fun t => [bankByte t.bank 100, bankByte t.bank 101, bankByte t.bank 102, bankByte t.bank 103]

/-- What `decode` of a word responds, as its decoded instruction. -/
def decoded (w : Word) : Option DecodedInstruction :=
  match answer State.reset (.decode w) with
  | some (.ok (.decoded d)) => some d
  | _ => none

/-! ## WellFormed refuses an ill-formed term of each kind (R65 to R67) -/

theorem test_wf_refuses_odd_branch : ¬WellFormed (.branch 0x0001 0 0 0) := by decide
theorem test_wf_refuses_odd_jal : ¬WellFormed (.jal 0x000001 0) := by decide
theorem test_wf_refuses_low_bits_of_lui : ¬WellFormed (.lui 0x00000800 0) := by decide
theorem test_wf_refuses_low_bits_of_auipc : ¬WellFormed (.auipc 0x00000001 0) := by decide
theorem test_wf_admits_even_branch : WellFormed (.branch 0x1FFE 0 0 0) := by decide

/-! ## Decoding: words of the spec, bit by bit, and V6's table -/

/-- `addi x5, x0, 1` (W1): imm 000000000001, rs1 00000, funct3 000, rd 00101, opcode 0010011. -/
theorem test_decode_addi_bits :
    decodeWord 0b000000000001_00000_000_00101_0010011 = .ok (.opImm 1 0 5 0) := by decide
/-- `lw x6, -1(x7)`: imm 111111111111, rs1 00111, funct3 010, rd 00110, opcode 0000011. -/
theorem test_decode_lw_bits : decodeWord 0b111111111111_00111_010_00110_0000011 = .ok (.load 0xFFF 7 6 2) := by decide
/-- `auipc x3, 0x80000`: imm 10000000000000000000, rd 00011, opcode 0010111. -/
theorem test_decode_auipc_bits :
    decodeWord 0b10000000000000000000_00011_0010111 = .ok (.auipc 0x80000000 3) := by decide
/-- `sw x5, -4(x2)`: imm[11:5] 1111111, rs2 00101, rs1 00010, funct3 010, imm[4:0] 11100, opcode 0100011. -/
theorem test_decode_sw_bits :
    decodeWord 0b1111111_00101_00010_010_11100_0100011 = .ok (.store 0xFFC 5 2 2) := by decide
/-- `sub x3, x1, x2`: funct7 0100000, rs2 00010, rs1 00001, funct3 000, rd 00011, opcode 0110011. -/
theorem test_decode_sub_bits : decodeWord 0b0100000_00010_00001_000_00011_0110011 = .ok (.op 0x20 2 1 3 0) := by decide
/-- `lui x10, 0xDEADB`: imm 11011110101011011011, rd 01010, opcode 0110111. -/
theorem test_decode_lui_bits : decodeWord 0b11011110101011011011_01010_0110111 = .ok (.lui 0xDEADB000 10) := by decide
/-- `beq x1, x2, -8`: bit12 1, bits10:5 111111, rs2 00010, rs1 00001, funct3 000, bits4:1 1100, bit11 1, 1100011. -/
theorem test_decode_beq_bits :
    decodeWord 0b1_111111_00010_00001_000_1100_1_1100011 = .ok (.branch 0x1FF8 2 1 0) := by decide
/-- `jalr x0, 0(x1)`: imm 0, rs1 00001, funct3 000, rd 00000, opcode 1100111. -/
theorem test_decode_jalr_bits : decodeWord 0b000000000000_00001_000_00000_1100111 = .ok (.jalr 0 1 0 0) := by decide
/-- `jal x1, 2048`: bit20 0, bits10:1 0000000000, bit11 1, bits19:12 00000000, rd 00001, opcode 1101111. -/
theorem test_decode_jal_bits : decodeWord 0b0_0000000000_1_00000000_00001_1101111 = .ok (.jal 0x800 1) := by decide
/-- `csrrs x5, 0xC00, x0`: imm 110000000000, rs1 00000, funct3 010, rd 00101, opcode 1110011. -/
theorem test_decode_csrrs_bits :
    decodeWord 0b110000000000_00000_010_00101_1110011 = .ok (.system 0xC00 0 5 2) := by decide
/-- A byte stream (W1): the first byte is the least significant, and the rest of the stream is left. -/
theorem test_decode_bytes_W1 : decodeBytes [0x93, 0x02, 0x10, 0x00, 0x77] = .ok (.opImm 1 0 5 0, [0x77]) := by decide
theorem test_decode_bytes_truncated : decodeBytes [0x93, 0x02, 0x10] = .error .truncated := by decide
/-- A table row's word with the operand bits left out. -/
theorem test_decode_table_word : decodeTableWord 8 0x6F = some (.jal 0 0) := by decide
theorem test_encode_beq : encode (.branch 0x1FF8 2 1 0) = 0xFE208CE3 := by decide
theorem test_encode_jal : encode (.jal 0x1FFFFE 0) = 0xFFFFF06F := by decide

/-! ## The meanings: V6's decode results, at least one row for each opcode -/

theorem test_exec_load : decoded 0xFFF3A303 = some ⟨.load, .i 0xFFFFFFFF 7 6 2⟩ := by decide
theorem test_exec_load_positive : decoded 0x7FF5C503 = some ⟨.load, .i 0x000007FF 11 10 4⟩ := by decide
theorem test_exec_opImm : decoded 0x80008093 = some ⟨.opImm, .i 0xFFFFF800 1 1 0⟩ := by decide
theorem test_exec_opImm_srai : decoded 0x40315093 = some ⟨.opImm, .i 0x00000403 2 1 5⟩ := by decide
theorem test_exec_auipc : decoded 0x80000197 = some ⟨.auipc, .u 0x80000000 3⟩ := by decide
theorem test_exec_store : decoded 0x7FF00FA3 = some ⟨.store, .s 0x000007FF 31 0 0⟩ := by decide
theorem test_exec_store_negative : decoded 0x80111023 = some ⟨.store, .s 0xFFFFF800 1 2 1⟩ := by decide
theorem test_exec_op : decoded 0x402081B3 = some ⟨.op, .r 0x20 2 1 3 0⟩ := by decide
theorem test_exec_op_unassigned_funct7 : decoded 0x023100B3 = some ⟨.op, .r 0x01 3 2 1 0⟩ := by decide
theorem test_exec_lui : decoded 0xFFFFF0B7 = some ⟨.lui, .u 0xFFFFF000 1⟩ := by decide
theorem test_exec_branch : decoded 0x7E001FE3 = some ⟨.branch, .b 0x00000FFE 0 0 1⟩ := by decide
theorem test_exec_branch_negative : decoded 0x81EFF063 = some ⟨.branch, .b 0xFFFFF000 30 31 7⟩ := by decide
theorem test_exec_jalr : decoded 0xFFF280E7 = some ⟨.jalr, .i 0xFFFFFFFF 5 1 0⟩ := by decide
theorem test_exec_jal : decoded 0x7FFFF06F = some ⟨.jal, .j 0x000FFFFE 0⟩ := by decide
theorem test_exec_jal_negative : decoded 0x8000006F = some ⟨.jal, .j 0xFFF00000 0⟩ := by decide
theorem test_exec_system : decoded 0x30200073 = some ⟨.system, .i 0x00000302 0 0 0⟩ := by decide
theorem test_exec_system_negative : decoded 0xC00022F3 = some ⟨.system, .i 0xFFFFFC00 0 5 2⟩ := by decide

/-! ## Illegal words (V5), the word builder (V4), the extractors (V1), sign extension (V3) -/

/-- V5's rows: the all-zero and all-one words, FENCE, FENCE.I, a word of byte noise. -/
theorem test_illegal_words :
    ([0x00000000#32, 0xFFFFFFFF, 0x0000000F, 0x0000100F, 0x9F01514A].map
      fun w => latched State.reset (.decode w)).all (· == some ⟨.illegalValue, .classify⟩) = true := by decide

/-- V5's rows: a compressed word, AMO, custom-0, floating point, and the neighbours of OP_IMM's code. -/
theorem test_illegal_words_more :
    ([0x00000001#32, 0x0000002F, 0x0000000B, 0x00000053, 0x00000012, 0x00000014].map
      fun w => latched State.reset (.decode w)).all (· == some ⟨.illegalValue, .classify⟩) = true := by decide

theorem test_word_from_bytes :
    answer State.reset (.wordFromBytes 0x4A 0x51 0x01 0x9F) = some (.ok (.word 0x9F01514A)) := by decide

/-- V1's row for 0x9F01514A, a word with an illegal opcode. -/
theorem test_extractors_V1 :
    (fieldValue .opcode 0x9F01514A, fieldValue .rd 0x9F01514A, fieldValue .funct3 0x9F01514A, fieldValue .rs1 0x9F01514A,
      fieldValue .rs2 0x9F01514A, fieldValue .funct7 0x9F01514A) =
    (.opcode 0x4A, .rd 2, .funct3 5, .rs1 2, .rs2 16, .funct7 0x4F) := by decide

/-- V1's immediates for 0xDEADB537. -/
theorem test_immediates_V1 :
    (fieldValue .immIRaw 0xDEADB537, fieldValue .immSRaw 0xDEADB537, fieldValue .immBRaw 0xDEADB537,
      fieldValue .immU 0xDEADB537, fieldValue .immJRaw 0xDEADB537) =
    (.immIRaw 0xDEA, .immSRaw 0xDEA, .immBRaw 0x15EA, .immU 0xDEADB000, .immJRaw 0x1DB5EA) := by decide

/-- V3's rows that complete. -/
theorem test_sign_extend_V3 :
    ∀ r ∈ [(0x00000000#32, (1 : Int), 0x00000000#32), (0x00000001, 1, 0xFFFFFFFF), (0xFFFFFFFF, 1, 0xFFFFFFFF),
      (0x000007FF, 12, 0x000007FF), (0x00000800, 12, 0xFFFFF800), (0xFFFFF800, 12, 0xFFFFF800), (0x00001FF8, 13, 0xFFFFFFF8),
      (0x00100000, 21, 0xFFF00000), (0x00000080, 8, 0xFFFFFF80), (0x0000FFFF, 16, 0xFFFFFFFF), (0x80000000, 32, 0x80000000),
      (0x12345678, 32, 0x12345678)], signExtend r.1 r.2.1 = .ok r.2.2 := by decide

/-- V3's refusals. -/
theorem test_sign_extend_refusals :
    refusal State.reset (.signExtend 0x00001000 12) = some .signExtendNotJustified ∧
    refusal State.reset (.signExtend 0xFFFFF000 12) = some .signExtendNotJustified ∧
    refusal State.reset (.signExtend 0x7FFFF800 12) = some .signExtendNotJustified ∧
    refusal State.reset (.signExtend 0x00000000 0) = some .signExtendLength ∧
    refusal State.reset (.signExtend 0x00000005 33) = some .signExtendLength := by decide

/-! ## The Memory Unit: V7, V8, V9, R177 -/

theorem test_write_W3 : bytes100 State.reset (.access 100 0xDEADBEEF flagsW 4) = some [0xEF, 0xBE, 0xAD, 0xDE] := by decide
theorem test_read_V7 : accessValue bankV7 100 0x11223344 flagsRWb 4 = some 0xDEADBEEF := by decide
theorem test_read_misaligned_R44 : accessValue bankV7 101 0 flagsRWb 2 = some 0x0000ADBE := by decide
theorem test_read_without_writeback : accessValue bankV7 100 0 flagsR 4 = some 100 := by decide
theorem test_write_V7 : bytes100 bankV7 (.access 100 0x11223344 flagsW 4) = some [0x44, 0x33, 0x22, 0x11] := by decide
theorem test_write_misaligned_P2 : bytes100 bankV7 (.access 101 0x12345678 flagsW 2) = some [0xEF, 0x78, 0x56, 0xDE] := by
  decide
/-- Writing what an unlisted address reads as removes the entry. -/
theorem test_write_zero_unlists :
    (nextOf (step (issued (.access 100 0 flagsW 4) bankV7))).map (·.bank) = some [] := by decide
theorem test_flags_conflict_V7 :
    latched bankV7 (.access 51197 0 flagsRW 4) = some ⟨.illegalValue, .memFlags⟩ := by decide
theorem test_bounds_V8 :
    accessValue State.reset 51196 0 flagsRWb 4 = some 0 ∧ accessValue State.reset 51198 0 flagsRWb 2 = some 0 ∧
    accessValue State.reset 51199 0 flagsRWb 1 = some 0 ∧ accessValue State.reset 51199 0 noFlags 1 = some 0xC7FF := by decide
theorem test_out_of_bounds_V8 :
    ∀ r ∈ [(51197#32, (4 : Int)), (51199, 2), (51199, 4), (51200, 1), (0xFFFFFFFE, 4), (0xFFFFFFFF, 1)],
      latched State.reset (.access r.1 0 flagsRWb r.2) = some ⟨.outOfBounds, .memBounds⟩ := by decide
theorem test_no_op_out_of_bounds :
    latched State.reset (.access 51200 0 noFlags 1) = some ⟨.outOfBounds, .memBounds⟩ := by decide
theorem test_width_refusals_V9 :
    refusal State.reset (.access 0 0 flagsRWb 0) = some .widthNotLegal ∧
    refusal State.reset (.access 0 0 flagsW 3) = some .widthNotLegal ∧
    refusal State.reset (.access 0 0 noFlags 8) = some .widthNotLegal ∧
    refusal State.reset (.access 51199 0 flagsRW 5) = some .widthNotLegal := by decide

/-! ## The latch (P4) and the table word after reset -/

theorem test_latched_admits_nothing :
    faultOf (step (issued (.decode 0x00100293) latchedState)) = some (.runOver ⟨.illegalValue, .classify⟩) := by decide
theorem test_first_step_after_reset :
    (nextOf (step (State.reset.withFetchWord 32 0x00100293))).bind (·.response) =
      some (.ok (.decoded ⟨.opImm, .i 1 0 5 0⟩)) := by decide

/-! ## Consumer views (R56, R76, R77; V6's assembly column, P3's accesses) -/

theorem test_asm_lw : (decoded 0xFFF3A303).bind asmLine = some (.based .lw 6 (-1) 7) := by decide
theorem test_asm_srai : (decoded 0x40315093).bind asmLine = some (.immediate .srai 1 2 3) := by decide
theorem test_asm_beq : (decoded 0xFE208CE3).bind asmLine = some (.compare .beq 1 2 (-8)) := by decide
theorem test_asm_lui : (decoded 0xDEADB537).bind asmLine = some (.upper .lui 10 0xDEADB) := by decide
theorem test_asm_ecall : (decoded 0x00000073).bind asmLine = some (.plain .ecall) := by decide
/-- P3's first row: x2 = 0x200, x5 = 0x11223344, `sw x5, -4(x2)` is `access(0x1FC, 0x11223344, W, 4)`. -/
theorem test_consumer_sw :
    (decoded 0xFE512E23).bind (consumerAccess [0, 0, 0x200, 0, 0, 0x11223344]) =
      some (.access 0x1FC 0x11223344 flagsW 4) := by decide
/-- P3: `lb x8, -2(x2)` reads 0x80 and the consumer makes 0xFFFFFF80 of it. -/
theorem test_consumer_lb : consumerLoadValue .lb 0x80 = .ok 0xFFFFFF80 := by decide

/-! ## Witnesses: for each statement with hypotheses, a state and operands that meet them -/

theorem witness_EveryStepKeepsInvariant :
    StateInv State.reset ∧ (nextOf (step (issued (.access 100 0xDEADBEEF flagsW 4) State.reset))).isSome := by
  refine ⟨⟨by decide, by decide, ?_, ?_, ?_⟩, by decide⟩ <;> simp [State.reset]
theorem witness_DecodeOfEncodeIsIdentity : WellFormed (.jal 0x1FFFFE 31) ∧ WellFormed (.lui 0xFFFFF000 0) := by decide
theorem witness_EncodeOfDecodeIsIdentity : decodeWord 0xFE208CE3 = .ok (.branch 0x1FF8 2 1 0) := by decide
theorem witness_ByteStreamDecodesOneInstruction : WellFormed (.branch 0x1000 31 31 7) := by decide
theorem witness_ClassifyRespondsTheOpcode : State.reset.faultLatch = none ∧ classify 0x00100293 = .ok .opImm := by decide
theorem witness_IllegalOpcodeRaisesIllegalValue :
    State.reset.faultLatch = none ∧ (0x0000000F#32).extractLsb' 0 7 ∉ legalCodes := by decide
theorem witness_OnlyTheOpcodeIsChecked :
    (0x00003003#32).extractLsb' 0 7 = (0xFFFFFF83#32).extractLsb' 0 7 ∧ State.reset.faultLatch = none ∧
      classify 0x00003003 = .ok .load := by decide
theorem witness_FenceAtomicAndCompressedWordsAreIllegal :
    (0x0000000F#32).extractLsb' 0 7 = 0x0F#7 ∧ (0x0000002F#32).extractLsb' 0 7 = 0x2F#7 ∧
      (0x00000012#32).extractLsb' 0 2 ≠ 0b11#2 := by decide
theorem witness_StepRunsTheDecodedInstruction :
    decodeWord 0x8000006F = .ok (.jal 0x100000 0) ∧ decodeTableWord 32 0x8000006F = some (.jal 0x100000 0) := by decide
/-- A legal and an illegal word: both branches of the algorithm. -/
theorem witness_DecoderFollowsItsAlgorithm :
    State.reset.faultLatch = none ∧ classify 0x00000073 = .ok .system ∧
      classify 0x00000000 = .error (.illegalOpcode 0) := by decide
theorem witness_DecoderOutputGuarantees : bankV7.faultLatch = none := by decide
theorem witness_IFormatInstructionsEmitTheirFields :
    (nextOf (exec (.load 0x800 31 0 7) bankV7)).isSome ∧ (nextOf (exec (.opImm 0xFFF 0 0 0) bankV7)).isSome ∧
      (nextOf (exec (.jalr 1 0 0 0) bankV7)).isSome ∧ (nextOf (exec (.system 0xC00 0 0 0) bankV7)).isSome ∧
      bankV7.faultLatch = none := by decide
theorem witness_StoreBranchAndJalEmitTheirFields :
    (nextOf (exec (.store 0x800 31 0 7) bankV7)).isSome ∧ (nextOf (exec (.branch 0x1000 0 0 0) bankV7)).isSome ∧
      (nextOf (exec (.jal 0x100000 0) bankV7)).isSome ∧ bankV7.faultLatch = none := by decide
theorem witness_OpAndUpperInstructionsEmitTheirFields :
    (nextOf (exec (.op 0x7F 31 0 7 0) bankV7)).isSome ∧ (nextOf (exec (.lui 0x80000000 0) bankV7)).isSome ∧
      (nextOf (exec (.auipc 0 0) bankV7)).isSome ∧ bankV7.faultLatch = none := by decide
theorem witness_InstructionsWriteNoState : (nextOf (exec (.store 0x800 31 0 2) bankV7)).isSome := by decide
/-- A word RV32I leaves unassigned and one it names, for the two sides of the equivalence. -/
theorem witness_UnassignedWordsDecodeWithoutAName :
    State.reset.faultLatch = none ∧ classify 0x023100B3 = .ok .op ∧ unassignedWord .op 0x023100B3 ∧
      (decoded 0x023100B3).bind rv32iName = none ∧ (decoded 0x402081B3).bind rv32iName = some .sub := by
  refine ⟨by decide, by decide, .inl (by decide), by decide, by decide⟩
theorem witness_WordBuilderIsLittleEndian : bankV7.faultLatch = none := by decide
theorem witness_ExtractorsReturnTheFixedFields : bankV7.faultLatch = none := by decide
theorem witness_ISUImmediatesTakeTheirBits : bankV7.faultLatch = none := by decide
theorem witness_BJImmediatesTakeTheirBits : bankV7.faultLatch = none := by decide
/-- The least and the greatest length, a right-justified and an already-extended value. -/
theorem witness_SignExtendExtendsAdmittedValues :
    State.reset.faultLatch = none ∧ extendable 0x00000001 (1 : Int).toNat ∧ extendable 0xFFFFF800 (12 : Int).toNat ∧
      extendable 0x80000000 (32 : Int).toNat := by decide
theorem witness_SignExtendRefusesOtherRequests :
    State.reset.faultLatch = none ∧ ((0 : Int) < 1 ∧ (32 : Int) < 33) ∧
      ((1 : Int) ≤ 12 ∧ (12 : Int) ≤ 32 ∧ ¬extendable 0x00001000 (12 : Int).toNat) := by decide
theorem witness_SignExtendObeysItsLaws : signExtend 0x800 12 = .ok 0xFFFFF800 := by decide
theorem witness_MemWriteStoresExactlyItsBytes :
    bankV7.bank.wf ∧ (4 : Nat) ∈ [1, 2, 4] ∧ 51196 + 4 ≤ 51200 := by decide
theorem witness_MemReadIsLittleEndianAndZeroExtended : (2 : Nat) ∈ [1, 2, 4] ∧ 51198 + 2 ≤ 51200 := by decide
theorem witness_BanksThatReadAlikeAreEqual : bankV7.bank.wf ∧ ∀ a, bankByte bankV7.bank a = bankByte bankV7.bank a :=
  ⟨by decide, fun _ => rfl⟩
/-- A write that ends at the bank's last byte; and a step that goes on though no write fits. -/
theorem witness_WritePathStoresAndIsTheOnlyOne :
    (bankV7.faultLatch = none ∧ bankV7.bank.wf ∧ flagsW.write = true ∧ flagsW.read = false ∧ legalWidth 4 ∧
      inBounds 51196 4) ∧
    (nextOf (step (issued (.access 51197 0 flagsW 4) bankV7))).isSome ∧ ¬inBounds 51197 4 := by decide
theorem witness_ReadWithWritebackAnswersTheBytes :
    bankV7.faultLatch = none ∧ flagsRWb.read = true ∧ flagsRWb.write = false ∧ flagsRWb.writeback = true ∧ legalWidth 2 ∧
      inBounds 51198 2 := by decide
/-- The two forms: a read without writeback, and a no-op at the last byte. -/
theorem witness_PlainReadAndNoOpAnswerTheAddress :
    bankV7.faultLatch = none ∧ (flagsR.write = false ∧ flagsR.writeback = false ∧ legalWidth 4 ∧ inBounds 0 4) ∧
      (noFlags.write = false ∧ noFlags.read = false ∧ legalWidth 1 ∧ inBounds 51199 1) := by decide
theorem witness_ReadAndWriteTogetherRaiseIllegalValue :
    bankV7.faultLatch = none ∧ legalWidth 4 ∧ flagsRW.read = true ∧ flagsRW.write = true := by decide
theorem witness_AccessBeyondTheBankRaisesOutOfBounds :
    bankV7.faultLatch = none ∧ legalWidth 1 ∧ ¬(noFlags.read = true ∧ noFlags.write = true) ∧ ¬inBounds 51200 1 ∧
      ¬inBounds 0xFFFFFFFF 1 := by decide
theorem witness_OtherWidthsAreRefused :
    State.reset.faultLatch = none ∧ ¬legalWidth 0 ∧ ¬legalWidth 3 ∧ ¬legalWidth (-1) := by decide
/-- One witness for each of the four clauses. -/
theorem witness_FlagsErrorComesBeforeBoundsError :
    (State.reset.faultLatch = none ∧ flagsRW.read = true ∧ flagsRW.write = true ∧ ¬inBounds 51199 4 ∧
      (nextOf (step (issued (.access 51199 0 flagsRW 4) State.reset))).isSome) ∧
    latched State.reset (.classify 0) = some ⟨.illegalValue, .classify⟩ ∧
    latched State.reset (.decode 0) = some ⟨.illegalValue, .classify⟩ ∧ ¬legalWidth 5 ∧
    latched State.reset (.access 51200 0 noFlags 1) = some ⟨.outOfBounds, .memBounds⟩ := by decide
theorem witness_EveryAccessIsPrecise : bankV7.faultLatch = none ∧ bankV7.bank.wf := by decide
/-- Both sides of the bounds, with a legal width. -/
theorem witness_PackedFlagsHaveTheirOutcomes :
    bankV7.faultLatch = none ∧ legalWidth 4 ∧ inBounds 51196 4 ∧ ¬inBounds 51197 4 := by decide
theorem witness_ReadAfterWriteReturnsTheValue :
    bankV7.faultLatch = none ∧ bankV7.bank.wf ∧ legalWidth 4 ∧ inBounds 101 4 := by decide
theorem witness_BankHoldsTheLatestWrites :
    ∃ t, State.reset.bank.wf ∧ State.reset.faultLatch = none ∧
      endsWell 1 (issued (.access 51199 0xAB flagsW 1) State.reset) t :=
  ⟨_, by decide, rfl, rfl, rfl⟩
/-- A step that serves a write, with another write to the same address still pending. -/
theorem witness_EveryStepKeepsWhatTheHistoryLeaves :
    ∃ t, bankV7.bank.wf ∧ t.faultLatch = none ∧
      step (issued (.access 101 0xAB flagsW 1) (issued (.access 101 0xCD flagsW 1) bankV7)) = .next t :=
  ⟨_, by decide, rfl, rfl⟩
theorem witness_LatchedFaultAdmitsNothing : latchedState.faultLatch = some ⟨.illegalValue, .classify⟩ := by decide
theorem witness_FatalErrorIsPrecise :
    State.reset.faultLatch = none ∧ latched bankV7 (.access 51197 0 flagsW 4) = some ⟨.outOfBounds, .memBounds⟩ := by decide
theorem witness_DivideByZeroIsNeverRaised : latched bankV7 (.classify 0x4A) = some ⟨.illegalValue, .classify⟩ := by decide
theorem witness_OperationsCompleteWhenTheContractIsKept :
    State.reset.faultLatch = none ∧ contractKept (.access 51199 0 flagsW 1) ∧ errorFree (.access 51199 0 flagsW 1) ∧
      ¬contractKept (.signExtend 0 33) ∧ ¬errorFree (.classify 0) := by decide
theorem witness_DecodeAndAccessCommute :
    ∃ t u, endsWell 2 (issued (.decode 0x00100293) (issued (.access 100 1 flagsW 4) State.reset)) t ∧
      endsWell 2 (issued (.access 100 1 flagsW 4) (issued (.decode 0x00100293) State.reset)) u :=
  ⟨_, _, ⟨rfl, rfl⟩, rfl, rfl⟩
theorem witness_DecodingUnwrittenMemoryEndsTheRun : inBounds 0x400 4 ∧ inBounds 51196 4 := by decide
theorem witness_IdleStepChangesNothing : bankV7.faultLatch = none ∧ bankV7.requests = [] := by decide
theorem witness_ConsumerStoreThenLoadRoundTrip :
    (2#3) ∈ [0#3, 1#3, 2#3] ∧ State.reset.faultLatch = none ∧ State.reset.bank.wf ∧
      (List.replicate 32 (0x200 : Word)).length = 32 ∧
      inBounds ((List.replicate 32 (0x200 : Word)).getD (2 : RegIndex).toNat 0 + 0xFFFFFFFC) (2 ^ (2#3).toNat) := by decide

end Sys2Proof.Tests
end

section
/-! The bytes that MemWrite leaves in the bank (20_memory.md R42). -/

namespace Sys2Proof.Machine

/-- R42 for every byte count: by induction on the bytes written, the last of them being the one at `a + n`. -/
theorem bankByte_memWrite {m : Memory} (hm : m.wf) (a n : Nat) (v : Word) (b : Nat) :
    bankByte (memWrite m a n v) b = if a ≤ b ∧ b < a + n then storedByte a v b else bankByte m b := by
  induction n with
  | zero => simp [memWrite]
  | succ n ih =>
    rw [memWrite, bankByte_setByte (memWrite_wf hm a n v), ih]
    by_cases hb : b = a + n
    · simp [hb, storedByte]
    · have hrange : (a ≤ b ∧ b < a + (n + 1)) ↔ (a ≤ b ∧ b < a + n) := by omega
      simp only [hb, hrange, if_false]

/-- Settles O29: `bankByte_memWrite` at the byte counts and addresses that R42 admits. -/
theorem memWriteStoresExactlyItsBytes : Obligations.MemWriteStoresExactlyItsBytes :=
  fun _ a n v b hm _ _ => bankByte_memWrite hm a n v b

end Sys2Proof.Machine
end

section
/-! The Field Extractor as the caller sees it (40_field_extractor.md R100 to R111). -/

namespace Sys2Proof.Machine

/-- R100: an extractor answers its field of any word, and the step changes nothing else. -/
theorem step_issued_extract {s : State} (hlatch : s.faultLatch = none) (f : FieldSel) (w : Word) :
    step (issued (.extract f w) s) = .next { s with response := some (.ok (.field (fieldValue f w))) } :=
  (step_issueNext s (.extract f w)).trans (respond_of_none hlatch (.field (fieldValue f w)))

/-- R107, bit by bit. -/
theorem getLsbD_immIRaw (w : Word) (k : Nat) :
    (Extract.immIRaw w).getLsbD k = (decide (k < 12) && w.getLsbD (20 + k)) :=
  BitVec.getLsbD_extractLsb' 20 12 w k

/-- Settles O23: the step answers the assembled immediates, and each run of bits falls in one case of the
`getLsbD_imm…` lemmas. -/
theorem isuImmediatesTakeTheirBits : Obligations.ISUImmediatesTakeTheirBits := by
  intro s w hlatch
  refine ⟨⟨Extract.immIRaw w, step_issued_extract hlatch .immIRaw w, fun k hk => ?_⟩,
    ⟨Extract.immSRaw w, step_issued_extract hlatch .immSRaw w, fun k hk => ?_, fun k hk => ?_⟩,
    ⟨Extract.immU w, step_issued_extract hlatch .immU w, fun k hk => ?_, fun k hk => ?_⟩⟩
  · rw [getLsbD_immIRaw, decide_eq_true hk, Bool.true_and]
  · rw [getLsbD_immSRaw, if_pos hk]
  · rw [getLsbD_immSRaw, if_neg (by omega), decide_eq_true (by omega), Bool.true_and, ← Nat.add_assoc]
  · rw [getLsbD_immU, decide_eq_false (by omega), Bool.false_and]
  · rw [getLsbD_immU, decide_eq_true hk, Bool.true_and]

/-- Settles O22: R101 to R106 are `step_issued_extract` at the six fixed-position extractors. -/
theorem extractorsReturnTheFixedFields : Obligations.ExtractorsReturnTheFixedFields :=
  fun _ w hlatch =>
    ⟨step_issued_extract hlatch .opcode w, step_issued_extract hlatch .rd w, step_issued_extract hlatch .funct3 w,
      step_issued_extract hlatch .rs1 w, step_issued_extract hlatch .rs2 w, step_issued_extract hlatch .funct7 w⟩

/-- Settles O24: the single bits are instances of the `getLsbD_imm…` lemmas, and each run of bits falls in one of
their cases. -/
theorem bjImmediatesTakeTheirBits : Obligations.BJImmediatesTakeTheirBits := by
  intro s w hlatch
  refine ⟨⟨Extract.immBRaw w, step_issued_extract hlatch .immBRaw w, getLsbD_immBRaw w 12, getLsbD_immBRaw w 11,
      fun k hk => ?_, fun k hk => ?_, getLsbD_immBRaw w 0⟩,
    ⟨Extract.immJRaw w, step_issued_extract hlatch .immJRaw w, getLsbD_immJRaw w 20, fun k hk => ?_,
      getLsbD_immJRaw w 11, fun k hk => ?_, getLsbD_immJRaw w 0⟩⟩
  · rw [getLsbD_immBRaw, if_neg (by omega), if_neg (by omega), if_pos (by omega), ← Nat.add_assoc]
  · rw [getLsbD_immBRaw, if_neg (by omega), if_pos (by omega), ← Nat.add_assoc]
  · rw [getLsbD_immJRaw, if_neg (by omega), if_neg (by omega), if_neg (by omega), if_pos (by omega)]
  · rw [getLsbD_immJRaw, if_neg (by omega), if_pos (by omega), ← Nat.add_assoc]

end Sys2Proof.Machine
end

section
/-! The Classifier, the Decoder and the word builder as the caller sees them (42_classifier_decoder.md R130 to R150). -/

namespace Sys2Proof.Machine

/-! ## The Decoder's variant is the one cut from the word's bits (R134) -/

/-- R122, I and S. -/
theorem routeIS_eq_signExtend (raw : BitVec 12) : routeIS raw = raw.signExtend 32 :=
  signExtendBits_setWidth raw (by decide)

/-- R122, B. -/
theorem routeB_eq_signExtend (raw : BitVec 13) : routeB raw = raw.signExtend 32 :=
  signExtendBits_setWidth raw (by decide)

/-- R122, J. -/
theorem routeJ_eq_signExtend (raw : BitVec 21) : routeJ raw = raw.signExtend 32 :=
  signExtendBits_setWidth raw (by decide)

/-- R110: masking with 0xFFFFF000 keeps the bits 31:12 above twelve zeros. -/
theorem immU_eq_append (w : Word) : Extract.immU w = w.extractLsb' 12 20 ++ 0#12 := by
  refine BitVec.eq_of_getLsbD_eq fun k hk => ?_
  rw [getLsbD_immU, BitVec.getLsbD_append]
  by_cases hlow : k < 12
  · simp [hlow, Nat.not_le.2 hlow]
  · have hshift : 12 + (k - 12) = k := by omega
    simp [hlow, Nat.not_lt.1 hlow, hshift, show k - 12 < 20 by omega]

/-- R134: the instruction's meaning emits the variant of its opcode's format. -/
theorem emittedVariant_extractInstr (o : Opcode) (w : Word) :
    emittedVariant (extractInstr o w) = variantFromBits (formatOf o) w := by
  cases o with
  | load | opImm | jalr | system =>
    exact congrArg (Variant.i · (Extract.rs1 w) (Extract.rd w) (Extract.funct3 w)) (routeIS_eq_signExtend _)
  | store => exact congrArg (Variant.s · (Extract.rs2 w) (Extract.rs1 w) (Extract.funct3 w)) (routeIS_eq_signExtend _)
  | branch => exact congrArg (Variant.b · (Extract.rs2 w) (Extract.rs1 w) (Extract.funct3 w)) (routeB_eq_signExtend _)
  | jal => exact congrArg (Variant.j · (Extract.rd w)) (routeJ_eq_signExtend _)
  | auipc | lui => exact congrArg (Variant.u · (Extract.rd w)) (immU_eq_append w)
  | op => rfl

/-! ## One step of `decode` -/

/-- R134, a legal word: the step answers its opcode and variant, and changes nothing else. -/
theorem step_issued_decode_of_classify {s : State} {w : Word} {o : Opcode} (hlatch : s.faultLatch = none)
    (ho : classify w = .ok o) :
    step (issued (.decode w) s) =
      .next { s with response := some (.ok (.decoded ⟨o, variantFromBits (formatOf o) w⟩)) } := by
  have hexec : exec (extractInstr o w) s = _ := exec_next_iff.2 ⟨hlatch, rfl⟩
  rw [opcodeOf_extractInstr, emittedVariant_extractInstr] at hexec
  have hserve : serveDecode w s = exec (extractInstr o w) s := by
    rw [serveDecode, decodeWord_of_classify ho]
  exact (step_issueNext s (.decode w)).trans (hserve.trans hexec)

/-- R132, an illegal word: the step takes IllegalValue at CLASSIFY. -/
theorem step_issued_decode_of_classify_error {s : State} {w : Word} {e : DecodeError} (hlatch : s.faultLatch = none)
    (he : classify w = .error e) :
    takesError (step (issued (.decode w) s)) s ⟨.illegalValue, .classify⟩ := by
  have hserve : serveDecode w s = raise ⟨.illegalValue, .classify⟩ s := by
    simp only [serveDecode, decodeWord, he]
  exact (step_issueNext s (.decode w)).trans (hserve.trans (raise_of_none hlatch _))

/-- Settles O14: the Classifier's two answers are the two branches of the algorithm. -/
theorem decoderFollowsItsAlgorithm : Obligations.DecoderFollowsItsAlgorithm := by
  intro s w hlatch
  cases hc : classify w with
  | ok o => exact step_issued_decode_of_classify hlatch hc
  | error e => exact step_issued_decode_of_classify_error hlatch hc

/-! ## Nothing but the opcode is checked (R133) -/

/-- R131: the Classifier reads the low seven bits. -/
theorem classify_congr_opcode {w w' : Word} (h : w.extractLsb' 0 7 = w'.extractLsb' 0 7) : classify w = classify w' :=
  congrArg classifyCode h

/-- R133: a word decodes when it classifies, whatever its other fields hold. -/
theorem exists_decodeWord_ok_iff {w : Word} : (∃ i, decodeWord w = .ok i) ↔ ∃ o, classify w = .ok o := by
  constructor
  · rintro ⟨i, hi⟩
    obtain ⟨o, ho, -⟩ := decodeWord_ok_iff.1 hi
    exact ⟨o, ho⟩
  · rintro ⟨o, ho⟩
    exact ⟨extractInstr o w, decodeWord_of_classify ho⟩

/-- Settles O11: classifying reads the low seven bits only, and a word decodes exactly when it classifies. -/
theorem onlyTheOpcodeIsChecked : Obligations.OnlyTheOpcodeIsChecked := by
  refine ⟨fun w w' h => ?_, fun s w o hlatch ho => ⟨_, step_issued_decode_of_classify hlatch ho⟩⟩
  have hclassify := classify_congr_opcode h
  exact ⟨hclassify, by rw [exists_decodeWord_ok_iff, exists_decodeWord_ok_iff, hclassify]⟩

/-! ## The fields of the Decoder's variant, and no others (R150) -/

section Fields

variable (f : Format) (o : Opcode) (w : Word)

@[simp] theorem variantFormat_variantFromBits : variantFormat (variantFromBits f w) = f := by
  cases f <;> rfl

theorem decodedFunct7_variantFromBits :
    decodedFunct7 ⟨o, variantFromBits f w⟩ = if f = .r then some (w.extractLsb' 25 7) else none := by
  cases f <;> rfl

theorem decodedRs2_variantFromBits :
    decodedRs2 ⟨o, variantFromBits f w⟩ = if f ∈ [.r, .s, .b] then some (w.extractLsb' 20 5) else none := by
  cases f <;> rfl

theorem decodedRs1_variantFromBits :
    decodedRs1 ⟨o, variantFromBits f w⟩ = if f ∈ [.r, .i, .s, .b] then some (w.extractLsb' 15 5) else none := by
  cases f <;> rfl

theorem decodedRd_variantFromBits :
    decodedRd ⟨o, variantFromBits f w⟩ = if f ∈ [.r, .i, .u, .j] then some (w.extractLsb' 7 5) else none := by
  cases f <;> rfl

theorem decodedFunct3_variantFromBits :
    decodedFunct3 ⟨o, variantFromBits f w⟩ = if f ∈ [.r, .i, .s, .b] then some (w.extractLsb' 12 3) else none := by
  cases f <;> rfl

end Fields

/-- Settles O15: an illegal word raises IllegalValue; a legal one gets the variant of its opcode's format, whose fields
the `decoded…_variantFromBits` lemmas read. -/
theorem decoderOutputGuarantees : Obligations.DecoderOutputGuarantees := by
  intro s w hlatch
  cases hc : classify w with
  | error e => exact .inl (step_issued_decode_of_classify_error hlatch hc)
  | ok o =>
    refine .inr ⟨⟨o, variantFromBits (formatOf o) w⟩, step_issued_decode_of_classify hlatch hc, rfl,
      variantFormat_variantFromBits _ w, decodedFunct7_variantFromBits _ o w, decodedRs2_variantFromBits _ o w,
      decodedRs1_variantFromBits _ o w, decodedRd_variantFromBits _ o w, decodedFunct3_variantFromBits _ o w, ?_⟩
    -- only the U immediate is not the extractor's value by unfolding
    rw [immU_eq_append]
    dsimp only
    cases formatOf o <;> rfl

/-! ## The word builder (R130) -/

/-- A concatenation as a number: the high part counts in units of the low part's range. -/
theorem toNat_append_eq_add {m n : Nat} (hi : BitVec m) (lo : BitVec n) :
    (hi ++ lo).toNat = hi.toNat * 2 ^ n + lo.toNat := by
  rw [BitVec.toNat_append, ← Nat.shiftLeft_add_eq_or_of_lt lo.isLt, Nat.shiftLeft_eq]

/-- R130: byte 0 is the least significant. -/
theorem toNat_wordFromBytes (b0 b1 b2 b3 : Byte) :
    (wordFromBytes b0 b1 b2 b3).toNat =
      b0.toNat + b1.toNat * 2 ^ 8 + b2.toNat * 2 ^ 16 + b3.toNat * 2 ^ 24 := by
  simp only [wordFromBytes, toNat_append_eq_add]
  omega

/-- Settles O21: the step answers the assembled word, whose value is `toNat_wordFromBytes`. -/
theorem wordBuilderIsLittleEndian : Obligations.WordBuilderIsLittleEndian := by
  intro s b0 b1 b2 b3 hlatch
  have hstep := (step_issueNext s (.wordFromBytes b0 b1 b2 b3)).trans
    (respond_of_none hlatch (.word (wordFromBytes b0 b1 b2 b3)))
  exact ⟨wordFromBytes b0 b1 b2 b3, hstep, toNat_wordFromBytes b0 b1 b2 b3⟩

end Sys2Proof.Machine
end

section
/-! The Memory Unit as the caller sees it (43_memory_unit.md R160 to R178). -/

namespace Sys2Proof.Machine

/-! ## The checks, in the integers of the request (R31, R161, R171) -/

/-- R31: the legal widths are the byte counts of the DataWidths. -/
theorem widthOfCount_eq_some_iff {n : Int} {w : DataWidth} : widthOfCount n = some w ↔ n = widthBytes w := by
  constructor
  · intro h
    unfold widthOfCount at h
    split_ifs at h <;> cases h <;> assumption
  · rintro rfl
    cases w <;> rfl

theorem legalWidth_iff_exists_widthBytes {n : Int} : legalWidth n ↔ ∃ w, n = widthBytes w := by
  constructor
  · rintro (rfl | rfl | rfl)
    exacts [⟨.byte, rfl⟩, ⟨.halfword, rfl⟩, ⟨.word, rfl⟩]
  · rintro ⟨w, rfl⟩
    cases w <;> decide

/-- R161: the width refusal is due for exactly the widths that are not legal. -/
theorem widthOfCount_eq_none_iff {n : Int} : widthOfCount n = none ↔ ¬legalWidth n := by
  simp only [Option.eq_none_iff_forall_ne_some, ne_eq, widthOfCount_eq_some_iff, legalWidth_iff_exists_widthBytes,
    not_exists]

/-- R171: the bounds check is the integer sum. -/
theorem accessFits_iff {a : Word} {w : DataWidth} : accessFits a w = true ↔ inBounds a (widthBytes w) := by
  rw [accessFits, decide_eq_true_iff, Config.bankSize]
  omega

theorem flagsConflict_iff {f : MemoryFlags} : flagsConflict f = true ↔ f.read = true ∧ f.write = true :=
  Bool.and_eq_true_iff

/-! ## One step of `access`, by check and by path -/

section Access

variable {s : State} {f : MemoryFlags} {n : Int} {a : Word} (v : Word)

/-- R161. -/
theorem step_issued_access_of_not_legalWidth (hlatch : s.faultLatch = none) (hn : ¬legalWidth n) :
    step (issued (.access a v f n) s) = .refused .widthNotLegal := by
  have hserve : serveAccess a v f n s = refuse .widthNotLegal s := by
    rw [serveAccess, widthOfCount_eq_none_iff.2 hn]
  exact (step_issueNext s (.access a v f n)).trans (hserve.trans (refuse_of_none hlatch _))

/-- R170: the flags check comes before the bounds check, so the address does not matter. -/
theorem step_issued_access_of_conflict (hlatch : s.faultLatch = none) (hn : legalWidth n) (hr : f.read = true)
    (hw : f.write = true) :
    takesError (step (issued (.access a v f n) s)) s ⟨.illegalValue, .memFlags⟩ := by
  obtain ⟨w, hn⟩ := legalWidth_iff_exists_widthBytes.1 hn
  have hserve : serveAccess a v f n s = raise ⟨.illegalValue, .memFlags⟩ s := by
    simp only [serveAccess, widthOfCount_eq_some_iff.2 hn, flagsConflict_iff.2 ⟨hr, hw⟩, if_true]
  exact (step_issueNext s (.access a v f n)).trans (hserve.trans (raise_of_none hlatch _))

/-- R171. -/
theorem step_issued_access_of_not_inBounds (hlatch : s.faultLatch = none) (hn : legalWidth n)
    (hf : ¬(f.read = true ∧ f.write = true)) (ha : ¬inBounds a n) :
    takesError (step (issued (.access a v f n) s)) s ⟨.outOfBounds, .memBounds⟩ := by
  obtain ⟨w, rfl⟩ := legalWidth_iff_exists_widthBytes.1 hn
  have hserve : serveAccess a v f (widthBytes w) s = raise ⟨.outOfBounds, .memBounds⟩ s := by
    simp only [serveAccess, widthOfCount_eq_some_iff.2 rfl, if_neg (mt flagsConflict_iff.1 hf),
      if_neg (mt accessFits_iff.1 ha)]
  exact (step_issueNext s (.access a v f (widthBytes w))).trans (hserve.trans (raise_of_none hlatch _))

/-- R160: an access that passes the three checks takes its path. -/
theorem step_issued_access_of_checked {w : DataWidth} (hf : ¬(f.read = true ∧ f.write = true))
    (ha : inBounds a (widthBytes w)) :
    step (issued (.access a v f (widthBytes w)) s) = accessPath a v f w s := by
  refine (step_issueNext s (.access a v f (widthBytes w))).trans ?_
  simp only [serve, serveAccess, widthOfCount_eq_some_iff.2 rfl, if_neg (mt flagsConflict_iff.1 hf),
    if_pos (accessFits_iff.2 ha)]

/-- R172. -/
theorem step_issued_access_write (hlatch : s.faultLatch = none) (hn : legalWidth n) (ha : inBounds a n)
    (hr : f.read = false) (hw : f.write = true) :
    step (issued (.access a v f n) s) =
      .next { s with bank := memWrite s.bank a.toNat n.toNat v, response := some (.ok (.accessed a)) } := by
  obtain ⟨w, rfl⟩ := legalWidth_iff_exists_widthBytes.1 hn
  rw [step_issued_access_of_checked v (by simp [hr]) ha, accessPath, if_neg (by simp [hr]), if_pos hw]
  exact respond_of_none (s := s.withBank (memWrite s.bank a.toNat (widthBytes w) v)) hlatch (.accessed a)

/-- R173, R174. -/
theorem step_issued_access_read (hlatch : s.faultLatch = none) (hn : legalWidth n) (ha : inBounds a n)
    (hr : f.read = true) (hw : f.write = false) :
    step (issued (.access a v f n) s) =
      .next { s with
        response := some (.ok (.accessed (if f.writeback then memRead s.bank a.toNat n.toNat else a))) } := by
  obtain ⟨w, rfl⟩ := legalWidth_iff_exists_widthBytes.1 hn
  rw [step_issued_access_of_checked v (by simp [hw]) ha, accessPath, if_pos hr]
  exact respond_of_none hlatch _

/-- R175. -/
theorem step_issued_access_noOp (hlatch : s.faultLatch = none) (hn : legalWidth n) (ha : inBounds a n)
    (hr : f.read = false) (hw : f.write = false) :
    step (issued (.access a v f n) s) = .next { s with response := some (.ok (.accessed a)) } := by
  obtain ⟨w, rfl⟩ := legalWidth_iff_exists_widthBytes.1 hn
  rw [step_issued_access_of_checked v (by simp [hr]) ha, accessPath, if_neg (by simp [hr]), if_neg (by simp [hw])]
  exact respond_of_none hlatch (.accessed a)

end Access

/-- Settles O35: the flags check of `step_issued_access_of_conflict`, which asks nothing of the address. -/
theorem readAndWriteTogetherRaiseIllegalValue : Obligations.ReadAndWriteTogetherRaiseIllegalValue :=
  fun _ _ v _ _ hlatch hn hr hw => step_issued_access_of_conflict v hlatch hn hr hw

/-- Settles O34: with Read it is the read path, whose WritebackToRegister is excluded; without it the no-op path. -/
theorem plainReadAndNoOpAnswerTheAddress : Obligations.PlainReadAndNoOpAnswerTheAddress := by
  intro s a v f n hlatch hw hplain hn ha
  cases hr : f.read with
  | true => rw [step_issued_access_read v hlatch hn ha hr hw, hplain hr, if_neg Bool.false_ne_true]
  | false => exact step_issued_access_noOp v hlatch hn ha hr hw

/-! ## What an access leaves in the bank (R172, R178) -/

/-- R172: the bytes of a write, its range in the request's integers. -/
theorem bankByte_memWrite_of_legalWidth {m : Memory} {n : Int} (hm : m.wf) (hn : legalWidth n) (a : Nat) (v : Word)
    (b : Nat) :
    bankByte (memWrite m a n.toNat v) b = if a ≤ b ∧ (b : Int) < a + n then storedByte a v b else bankByte m b := by
  have hrange : (b < a + n.toNat) ↔ (b : Int) < a + n := by omega
  simp only [bankByte_memWrite hm, hrange]

/-- R172: serving an operation keeps the bank, unless the operation is an access that passes the checks with Write and
not Read. -/
theorem serve_bank_eq_or_write {s t : State} {r : Request} (h : serve r s = .next t) :
    t.bank = s.bank ∨
      ∃ a v f n, r = .access a v f n ∧ f.write = true ∧ f.read = false ∧ legalWidth n ∧ inBounds a n := by
  cases r with
  | wordFromBytes => exact .inl (by rw [(respond_next_iff.1 h).2]; rfl)
  | extract => exact .inl (by rw [(respond_next_iff.1 h).2]; rfl)
  | signExtend =>
    obtain ⟨-, u, -, rfl⟩ := serveSignExtend_next_iff.1 h
    exact .inl rfl
  | classify =>
    obtain ⟨-, ⟨o, -, rfl⟩ | ⟨-, rfl⟩⟩ := serveClassify_next_cases h <;> exact .inl rfl
  | decode =>
    obtain ⟨-, ⟨o, -, rfl⟩ | ⟨-, rfl⟩⟩ := serveDecode_next_cases h <;> exact .inl rfl
  | access a v f n =>
    obtain ⟨-, w, hn, ⟨-, rfl⟩ | ⟨-, -, rfl⟩ | ⟨-, -, -, rfl⟩ | ⟨ha, hr, hw, -⟩ | ⟨-, -, -, rfl⟩⟩ :=
      serveAccess_next_cases h
    case inr.inr.inr.inl =>
      obtain rfl := widthOfCount_eq_some_iff.1 hn
      exact .inr ⟨a, v, f, _, rfl, hw, hr, legalWidth_iff_exists_widthBytes.2 ⟨w, rfl⟩, accessFits_iff.1 ha⟩
    all_goals exact .inl rfl

/-- Settles O32: the write path stores the bytes of `bankByte_memWrite_of_legalWidth`, and `serve_bank_eq_or_write` is
the frame of every other request. -/
theorem writePathStoresAndIsTheOnlyOne : Obligations.WritePathStoresAndIsTheOnlyOne := by
  refine ⟨fun s a v f n hlatch hwf hw hr hn ha => ?_, fun s r t hstep hnot => ?_⟩
  · exact ⟨_, step_issued_access_write v hlatch hn ha hr hw, bankByte_memWrite_of_legalWidth hwf hn a.toNat v⟩
  · have hbank : t.bank = s.bank := by
      obtain hbank | ⟨a, v, f, n, hr, hwrite⟩ := serve_bank_eq_or_write ((step_issueNext s r).symm.trans hstep)
      · exact hbank
      · exact absurd hwrite (hnot a v f n hr)
    exact ⟨hbank, fun b => by rw [hbank]⟩

/-- Settles O39: the checks in R160's order, then the three paths; only the write path moves the bank, and outside its
range `bankByte_memWrite_of_legalWidth` gives the old byte. -/
theorem everyAccessIsPrecise : Obligations.EveryAccessIsPrecise := by
  intro s a v f n hlatch hwf
  by_cases hn : legalWidth n
  case neg => exact .inr (.inr ⟨hn, step_issued_access_of_not_legalWidth v hlatch hn⟩)
  by_cases hf : f.read = true ∧ f.write = true
  case pos => exact .inr (.inl ⟨_, .inl rfl, _, step_issued_access_of_conflict v hlatch hn hf.1 hf.2⟩)
  by_cases ha : inBounds a n
  case neg => exact .inr (.inl ⟨_, .inr rfl, _, step_issued_access_of_not_inBounds v hlatch hn hf ha⟩)
  refine .inl ?_
  cases hr : f.read with
  | true =>
    have hw : f.write = false := by simpa [hr] using hf
    exact ⟨s.bank, _, step_issued_access_read v hlatch hn ha hr hw, fun _ _ => rfl⟩
  | false =>
    cases hw : f.write with
    | false => exact ⟨s.bank, _, step_issued_access_noOp v hlatch hn ha hr hw, fun _ _ => rfl⟩
    | true =>
      refine ⟨_, _, step_issued_access_write v hlatch hn ha hr hw, fun b hb => ?_⟩
      rw [bankByte_memWrite_of_legalWidth hwf hn, if_neg (by simpa using hb)]

end Sys2Proof.Machine
end

section
/-! The fatal errors that a step can take (60_exceptions.md R200 to R206). -/

namespace Sys2Proof.Machine

variable {s t : State} {e : FatalError}

/-- R12, R200, R202: an operation that goes on responds `Ok` and keeps FaultLatch, or takes one of R200's errors. -/
theorem serve_ok_or_raises {r : Request} (h : serve r s = .next t) :
    (t.faultLatch = s.faultLatch ∧ ∃ u, t.response = some (.ok u)) ∨
      ∃ e ∈ raisedErrors, t = (s.withLatch (some e)).withResponse (some (.fault e)) := by
  cases r with
  | wordFromBytes | extract =>
    obtain ⟨-, rfl⟩ := respond_next_iff.1 h
    exact .inl ⟨rfl, _, rfl⟩
  | signExtend =>
    obtain ⟨-, u, -, rfl⟩ := serveSignExtend_next_iff.1 h
    exact .inl ⟨rfl, _, rfl⟩
  | classify =>
    obtain ⟨-, ⟨o, -, rfl⟩ | ⟨-, rfl⟩⟩ := serveClassify_next_cases h
    · exact .inl ⟨rfl, _, rfl⟩
    · exact .inr ⟨⟨.illegalValue, .classify⟩, by decide, rfl⟩
  | decode =>
    obtain ⟨-, ⟨o, -, rfl⟩ | ⟨-, rfl⟩⟩ := serveDecode_next_cases h
    · exact .inl ⟨rfl, _, rfl⟩
    · exact .inr ⟨⟨.illegalValue, .classify⟩, by decide, rfl⟩
  | access =>
    obtain ⟨-, w, -, ⟨-, rfl⟩ | ⟨-, -, rfl⟩ | ⟨-, -, -, rfl⟩ | ⟨-, -, -, rfl⟩ | ⟨-, -, -, rfl⟩⟩ :=
      serveAccess_next_cases h
    · exact .inr ⟨⟨.illegalValue, .memFlags⟩, by decide, rfl⟩
    · exact .inr ⟨⟨.outOfBounds, .memBounds⟩, by decide, rfl⟩
    all_goals exact .inl ⟨rfl, _, rfl⟩

/-- R200: an error that a step latches or responds is one of the three that the block raises. -/
theorem mem_raisedErrors_of_step (hlatch : s.faultLatch = none) (hstep : step s = .next t)
    (he : t.faultLatch = some e ∨ t.response = some (.fault e)) : e ∈ raisedErrors := by
  obtain ⟨-, hidle⟩ | ⟨r, rest, -, hserve⟩ := step_cases s
  · obtain ⟨-, rfl⟩ := idle_next_iff.1 (hidle.symm.trans hstep)
    simp [hlatch] at he
  · obtain ⟨hkept, u, hok⟩ | ⟨e', hmem, rfl⟩ := serve_ok_or_raises (hserve.symm.trans hstep)
    · simp [hkept, hok, hlatch] at he
    · obtain rfl : e' = e := by simpa using he
      exact hmem

/-- R206: DivideByZero is the kind of none of R200's errors. -/
theorem kind_ne_divideByZero_of_mem_raisedErrors : ∀ e ∈ raisedErrors, e.kind ≠ .divideByZero := by
  decide

/-- Settles O45: an error that a step latches or responds is one of R200's, and none of those is a DivideByZero. -/
theorem divideByZeroIsNeverRaised : Obligations.DivideByZeroIsNeverRaised :=
  fun _ _ e hlatch hstep he =>
    kind_ne_divideByZero_of_mem_raisedErrors e (mem_raisedErrors_of_step hlatch hstep he)

end Sys2Proof.Machine
end

section
/-! Words and instructions stand for one another (30_encoding.md sections 1, 2, 4; 42_classifier_decoder.md R131,
R132). -/

namespace Sys2Proof

/-! ## The Classifier, as an equation on the low seven bits -/

/-- R131: the Classifier answers the opcode whose code the word ends in. -/
theorem classify_eq_ok_iff {w : Word} {o : Opcode} : classify w = .ok o ↔ Extract.opcode w = opcodeCode o := by
  constructor
  · intro h
    unfold classify classifyCode at h
    split at h
    next o' ho' =>
      obtain rfl : o' = o := by simpa using h
      have hcode : (opcodeCode o' == Extract.opcode w) = true := List.find?_some (p := (opcodeCode · == _)) ho'
      exact (beq_iff_eq.1 hcode).symm
    next => cases h
  · intro h
    rw [classify, h, classifyCode_opcodeCode]

/-- The spec's list of legal codes is the opcode map's. -/
theorem mem_legalCodes_iff {c : OpcodeBits} : c ∈ Machine.legalCodes ↔ ∃ o, opcodeCode o = c := by
  constructor
  · intro h
    have hmap : Machine.legalCodes = allOpcodes.map opcodeCode := rfl
    obtain ⟨o, -, ho⟩ := List.mem_map.1 (hmap ▸ h)
    exact ⟨o, ho⟩
  · rintro ⟨o, rfl⟩
    cases o <;> decide

/-- R132: every other word is illegal, and the error names its code. -/
theorem classify_eq_error_of_notMem {w : Word} (h : Extract.opcode w ∉ Machine.legalCodes) :
    classify w = .error (.illegalOpcode (Extract.opcode w)) := by
  have hfind : allOpcodes.find? (fun o => opcodeCode o == Extract.opcode w) = none :=
    List.find?_eq_none.2 fun o _ ho => h (mem_legalCodes_iff.2 ⟨o, beq_iff_eq.1 ho⟩)
  rw [classify, classifyCode, hfind]

theorem exists_classify_ok_iff {w : Word} :
    (∃ o, classify w = .ok o) ↔ Extract.opcode w ∈ Machine.legalCodes := by
  simp only [classify_eq_ok_iff, mem_legalCodes_iff, eq_comm (a := Extract.opcode w)]

theorem notMem_legalCodes_of_classify_error {w : Word} {e : DecodeError} (h : classify w = .error e) :
    Extract.opcode w ∉ Machine.legalCodes := fun hlegal => by
  obtain ⟨o, ho⟩ := exists_classify_ok_iff.2 hlegal
  rw [h] at ho
  cases ho

/-- Settles O8: each of the ten pairs is an opcode and its code. -/
theorem classifierGivesExactlyTheTenCodes : Obligations.ClassifierGivesExactlyTheTenCodes := by
  intro w o
  rw [classify_eq_ok_iff, Extract.opcode]
  cases o <;> simp [opcodeCode]

/-- Settles O12: none of the three families has a legal code, as each of those ends in 0b11. -/
theorem fenceAtomicAndCompressedWordsAreIllegal : Obligations.FenceAtomicAndCompressedWordsAreIllegal := by
  intro w h
  refine classify_eq_error_of_notMem (w := w) fun hlegal => ?_
  rw [Extract.opcode] at hlegal
  obtain hfence | hatomic | hcompressed := h
  · rw [hfence] at hlegal
    exact absurd hlegal (by decide)
  · rw [hatomic] at hlegal
    exact absurd hlegal (by decide)
  · have hends : ∀ c ∈ Machine.legalCodes, c.extractLsb' 0 2 = 0b11#2 := by decide
    have hlow : (w.extractLsb' 0 7).extractLsb' 0 2 = w.extractLsb' 0 2 :=
      BitVec.eq_of_getLsbD_eq fun k hk => by simp [hk]
    exact hcompressed (hlow ▸ hends _ hlegal)

/-! ## Cutting the fields that the encoder placed, format by format -/

/-- A slice is the value whose bits stand there. -/
theorem extractLsb'_eq_of_getLsbD {w : Word} {start len : Nat} {v : BitVec len}
    (h : ∀ k < len, w.getLsbD (start + k) = v.getLsbD k) : w.extractLsb' start len = v :=
  BitVec.eq_of_getLsbD_eq fun k hk => by rw [BitVec.getLsbD_extractLsb', decide_eq_true hk, Bool.true_and, h k hk]

theorem fields_encodeR (funct7 : Funct7) (rs2 rs1 : RegIndex) (funct3 : Funct3) (rd : RegIndex) (o : Opcode) :
    Extract.funct7 (encodeR funct7 rs2 rs1 funct3 rd o) = funct7 ∧
      Extract.rs2 (encodeR funct7 rs2 rs1 funct3 rd o) = rs2 ∧ Extract.rs1 (encodeR funct7 rs2 rs1 funct3 rd o) = rs1 ∧
      Extract.funct3 (encodeR funct7 rs2 rs1 funct3 rd o) = funct3 ∧
      Extract.rd (encodeR funct7 rs2 rs1 funct3 rd o) = rd := by
  refine ⟨?_, ?_, ?_, ?_, ?_⟩ <;>
    exact extractLsb'_eq_of_getLsbD fun k hk => by rw [getLsbD_encodeR]; grind

theorem fields_encodeI (imm : BitVec 12) (rs1 : RegIndex) (funct3 : Funct3) (rd : RegIndex) (o : Opcode) :
    Extract.immIRaw (encodeI imm rs1 funct3 rd o) = imm ∧ Extract.rs1 (encodeI imm rs1 funct3 rd o) = rs1 ∧
      Extract.funct3 (encodeI imm rs1 funct3 rd o) = funct3 ∧ Extract.rd (encodeI imm rs1 funct3 rd o) = rd := by
  refine ⟨?_, ?_, ?_, ?_⟩ <;>
    exact extractLsb'_eq_of_getLsbD fun k hk => by rw [getLsbD_encodeI]; grind

theorem fields_encodeS (imm : BitVec 12) (rs2 rs1 : RegIndex) (funct3 : Funct3) (o : Opcode) :
    Extract.immSRaw (encodeS imm rs2 rs1 funct3 o) = imm ∧ Extract.rs2 (encodeS imm rs2 rs1 funct3 o) = rs2 ∧
      Extract.rs1 (encodeS imm rs2 rs1 funct3 o) = rs1 ∧ Extract.funct3 (encodeS imm rs2 rs1 funct3 o) = funct3 := by
  refine ⟨BitVec.eq_of_getLsbD_eq fun k hk => ?_, ?_, ?_, ?_⟩
  · rw [getLsbD_immSRaw]
    simp only [getLsbD_encodeS]
    grind
  all_goals exact extractLsb'_eq_of_getLsbD fun k hk => by rw [getLsbD_encodeS]; grind

/-- R65 does not encode bit 0, so the immediate comes back where it is even. -/
theorem fields_encodeB {imm : BitVec 13} (heven : evenImm imm) (rs2 rs1 : RegIndex) (funct3 : Funct3) (o : Opcode) :
    Extract.immBRaw (encodeB imm rs2 rs1 funct3 o) = imm ∧ Extract.rs2 (encodeB imm rs2 rs1 funct3 o) = rs2 ∧
      Extract.rs1 (encodeB imm rs2 rs1 funct3 o) = rs1 ∧ Extract.funct3 (encodeB imm rs2 rs1 funct3 o) = funct3 := by
  refine ⟨BitVec.eq_of_getLsbD_eq fun k hk => ?_, ?_, ?_, ?_⟩
  · rw [getLsbD_immBRaw]
    simp only [getLsbD_encodeB]
    grind
  all_goals exact extractLsb'_eq_of_getLsbD fun k hk => by rw [getLsbD_encodeB]; grind

theorem upperImm_iff {imm : Word} : upperImm imm ↔ ∀ k < 12, imm.getLsbD k = false := by
  refine ⟨fun h k hk => ?_, fun h => extractLsb'_eq_of_getLsbD fun k hk => by simp [h k hk]⟩
  simpa [hk] using congrArg (BitVec.getLsbD · k) h

/-- R66 does not encode bits 11:0, so the immediate comes back where they are 0. -/
theorem fields_encodeU {imm : Word} (hupper : upperImm imm) (rd : RegIndex) (o : Opcode) :
    Extract.immU (encodeU imm rd o) = imm ∧ Extract.rd (encodeU imm rd o) = rd := by
  refine ⟨BitVec.eq_of_getLsbD_eq fun k hk => ?_,
    extractLsb'_eq_of_getLsbD fun k hk => by rw [getLsbD_encodeU]; grind⟩
  rw [getLsbD_immU, getLsbD_encodeU]
  have hlow := upperImm_iff.1 hupper k
  grind

/-- R67 does not encode bit 0, so the immediate comes back where it is even. -/
theorem fields_encodeJ {imm : BitVec 21} (heven : evenImm imm) (rd : RegIndex) (o : Opcode) :
    Extract.immJRaw (encodeJ imm rd o) = imm ∧ Extract.rd (encodeJ imm rd o) = rd := by
  refine ⟨BitVec.eq_of_getLsbD_eq fun k hk => ?_,
    extractLsb'_eq_of_getLsbD fun k hk => by rw [getLsbD_encodeJ]; grind⟩
  rw [getLsbD_immJRaw]
  simp only [getLsbD_encodeJ]
  grind

/-- Every instruction's word classifies as its opcode. -/
theorem classify_encode (i : Instr) : classify (encode i) = .ok (opcodeOf i) := by
  cases i
  case load => exact Laws.EncodeClassifies.load ..
  case opImm => exact Laws.EncodeClassifies.opImm ..
  case auipc => exact Laws.EncodeClassifies.auipc ..
  case store => exact Laws.EncodeClassifies.store ..
  case op => exact Laws.EncodeClassifies.op ..
  case lui => exact Laws.EncodeClassifies.lui ..
  case branch => exact Laws.EncodeClassifies.branch ..
  case jalr => exact Laws.EncodeClassifies.jalr ..
  case jal => exact Laws.EncodeClassifies.jal ..
  case system => exact Laws.EncodeClassifies.system ..

/-- The fields cut from a well-formed instruction's word are the instruction's. -/
theorem extractInstr_encode {i : Instr} (h : WellFormed i) : extractInstr (opcodeOf i) (encode i) = i := by
  cases i with
  | load imm rs1 rd funct3 | opImm imm rs1 rd funct3 | jalr imm rs1 rd funct3 | system imm rs1 rd funct3 =>
    simp only [opcodeOf, encode, extractInstr, fields_encodeI]
  | auipc imm rd | lui imm rd => simp only [opcodeOf, encode, extractInstr, fields_encodeU h]
  | store imm rs2 rs1 funct3 => simp only [opcodeOf, encode, extractInstr, fields_encodeS]
  | op funct7 rs2 rs1 rd funct3 => simp only [opcodeOf, encode, extractInstr, fields_encodeR]
  | branch imm rs2 rs1 funct3 => simp only [opcodeOf, encode, extractInstr, fields_encodeB h]
  | jal imm rd => simp only [opcodeOf, encode, extractInstr, fields_encodeJ h]

/-- Settles O4: the word classifies as the instruction's opcode, and the fields of that opcode come back. -/
theorem decodeOfEncodeIsIdentity : Obligations.DecodeOfEncodeIsIdentity :=
  fun i h => (decodeWord_of_classify (classify_encode i)).trans (congrArg _ (extractInstr_encode h))

/-! ## Encoding the fields cut from a word, format by format -/

section Encode

variable {w : Word} {o : Opcode} (h : Extract.opcode w = opcodeCode o)
include h

theorem getLsbD_opcodeCode (k : Nat) (hk : k < 7) : (opcodeCode o).getLsbD k = w.getLsbD k := by
  rw [← h, Extract.opcode, BitVec.getLsbD_extractLsb', decide_eq_true hk, Bool.true_and, Nat.zero_add]

theorem encodeR_fields :
    encodeR (Extract.funct7 w) (Extract.rs2 w) (Extract.rs1 w) (Extract.funct3 w) (Extract.rd w) o = w := by
  refine BitVec.eq_of_getLsbD_eq fun k hk => ?_
  have hcode := getLsbD_opcodeCode h k
  rw [getLsbD_encodeR]
  simp only [Extract.funct7, Extract.rs2, Extract.rs1, Extract.funct3, Extract.rd, BitVec.getLsbD_extractLsb']
  grind

theorem encodeI_fields :
    encodeI (Extract.immIRaw w) (Extract.rs1 w) (Extract.funct3 w) (Extract.rd w) o = w := by
  refine BitVec.eq_of_getLsbD_eq fun k hk => ?_
  have hcode := getLsbD_opcodeCode h k
  rw [getLsbD_encodeI]
  simp only [Extract.immIRaw, Extract.rs1, Extract.funct3, Extract.rd, BitVec.getLsbD_extractLsb']
  grind

theorem encodeS_fields :
    encodeS (Extract.immSRaw w) (Extract.rs2 w) (Extract.rs1 w) (Extract.funct3 w) o = w := by
  refine BitVec.eq_of_getLsbD_eq fun k hk => ?_
  have hcode := getLsbD_opcodeCode h k
  rw [getLsbD_encodeS]
  simp only [getLsbD_immSRaw, Extract.rs2, Extract.rs1, Extract.funct3, BitVec.getLsbD_extractLsb']
  grind

theorem encodeB_fields :
    encodeB (Extract.immBRaw w) (Extract.rs2 w) (Extract.rs1 w) (Extract.funct3 w) o = w := by
  refine BitVec.eq_of_getLsbD_eq fun k hk => ?_
  have hcode := getLsbD_opcodeCode h k
  rw [getLsbD_encodeB]
  simp only [getLsbD_immBRaw, Extract.rs2, Extract.rs1, Extract.funct3, BitVec.getLsbD_extractLsb']
  grind

theorem encodeU_fields : encodeU (Extract.immU w) (Extract.rd w) o = w := by
  refine BitVec.eq_of_getLsbD_eq fun k hk => ?_
  have hcode := getLsbD_opcodeCode h k
  rw [getLsbD_encodeU]
  simp only [getLsbD_immU, Extract.rd, BitVec.getLsbD_extractLsb']
  grind

theorem encodeJ_fields : encodeJ (Extract.immJRaw w) (Extract.rd w) o = w := by
  refine BitVec.eq_of_getLsbD_eq fun k hk => ?_
  have hcode := getLsbD_opcodeCode h k
  rw [getLsbD_encodeJ]
  simp only [getLsbD_immJRaw, Extract.rd, BitVec.getLsbD_extractLsb']
  grind

/-- No bit of a legal word is dropped: its fields and its opcode's code are all of it. -/
theorem encode_extractInstr : encode (extractInstr o w) = w := by
  cases o with
  | load | opImm | jalr | system => exact encodeI_fields h
  | auipc | lui => exact encodeU_fields h
  | store => exact encodeS_fields h
  | op => exact encodeR_fields h
  | branch => exact encodeB_fields h
  | jal => exact encodeJ_fields h

end Encode

/-- Settles O5: a word that decodes is cut by its opcode, so `encode_extractInstr` rebuilds it. -/
theorem encodeOfDecodeIsIdentity : Obligations.EncodeOfDecodeIsIdentity := by
  intro w i hi
  obtain ⟨o, ho, rfl⟩ := decodeWord_ok_iff.1 hi
  exact ⟨encode_extractInstr (classify_eq_ok_iff.1 ho), extractInstr_wellFormed o w⟩

/-! ## The byte stream (R60, R130) -/

/-- The word builder puts the bytes of a word back in their places. -/
theorem wordFromBytes_extractLsb' (w : Word) :
    wordFromBytes (w.extractLsb' 0 8) (w.extractLsb' 8 8) (w.extractLsb' 16 8) (w.extractLsb' 24 8) = w := by
  refine BitVec.eq_of_getLsbD_eq fun k hk => ?_
  simp only [wordFromBytes, BitVec.getLsbD_append, BitVec.getLsbD_extractLsb']
  grind

theorem decodeBytes_bytesOfWord_append {w : Word} {i : Instr} (h : decodeWord w = .ok i) (rest : List Byte) :
    decodeBytes (bytesOfWord w ++ rest) = .ok (i, rest) := by
  simp only [bytesOfWord, List.cons_append, List.nil_append, decodeBytes, wordFromBytes_extractLsb', h]

/-- Settles O6: the stream's first four bytes are the instruction's word, which decodes to it. -/
theorem byteStreamDecodesOneInstruction : Obligations.ByteStreamDecodesOneInstruction :=
  fun i rest h => decodeBytes_bytesOfWord_append (decodeOfEncodeIsIdentity i h) rest

/-- A row of the opcode table decodes as its word does. -/
theorem decodeWord_of_decodeTableWord {nbits w : Nat} {i : Instr} (h : decodeTableWord nbits w = some i) :
    decodeWord (tableWord nbits w) = .ok i := by
  cases hw : decodeWord (tableWord nbits w) with
  | ok j =>
    have hbytes := decodeBytes_bytesOfWord_append hw []
    rw [List.append_nil] at hbytes
    simpa [decodeTableWord, hbytes] using h
  | error e =>
    simp [decodeTableWord, bytesOfWord, decodeBytes, wordFromBytes_extractLsb', hw] at h

/-- Settles O7: the spec's ten words, each run through the decoder. -/
theorem specWordsDecodeToTheirInstructions : Obligations.SpecWordsDecodeToTheirInstructions := by
  unfold Obligations.SpecWordsDecodeToTheirInstructions
  decide

end Sys2Proof
end

section
/-! Sign Extension as the caller and the router see it (41_sign_extension.md R120 to R123). -/

namespace Sys2Proof.Machine

/-! ## Admission and result, against the library's sign extension -/

section Extend

variable {v : Word} {L : Nat}

/-- The library's extension of the low L bits, one bit at a time. -/
theorem getLsbD_signExtend_setWidth (v : Word) (hL : 1 ≤ L) {k : Nat} (hk : k < 32) :
    ((v.setWidth L).signExtend 32).getLsbD k = if k < L then v.getLsbD k else v.getLsbD (L - 1) := by
  rw [BitVec.getLsbD_signExtend, decide_eq_true hk, Bool.true_and, BitVec.msb_eq_getLsbD_last]
  split
  next hlt => rw [BitVec.getLsbD_setWidth, decide_eq_true hlt, Bool.true_and]
  next => rw [BitVec.getLsbD_setWidth, decide_eq_true (by omega), Bool.true_and]

/-- R123: extending keeps the low L bits. -/
theorem setWidth_signExtend_setWidth (v : Word) (hL : 1 ≤ L) (hL32 : L ≤ 32) :
    ((v.setWidth L).signExtend 32).setWidth L = v.setWidth L := by
  refine BitVec.eq_of_getLsbD_eq fun k hk => ?_
  rw [BitVec.getLsbD_setWidth, getLsbD_signExtend_setWidth v hL (by omega), if_pos hk, BitVec.getLsbD_setWidth]

theorem ushiftRight_eq_zero_iff : v >>> L = 0#32 ↔ v.toNat < 2 ^ L := by
  rw [← BitVec.toNat_inj, BitVec.toNat_ushiftRight, Nat.shiftRight_eq_div_pow]
  exact Nat.div_eq_zero_iff_lt (Nat.two_pow_pos L)

/-- The bits above L - 1 are all the sign bit exactly when the value is the extension of its low L bits. -/
theorem ushiftRight_eq_sign_iff (hL : 1 ≤ L) :
    v >>> L = (if v.getLsbD (L - 1) then 0xFFFFFFFF#32 >>> L else 0#32) ↔ v = (v.setWidth L).signExtend 32 := by
  have hones : 0xFFFFFFFF#32 = BitVec.allOnes 32 := rfl
  have hsign : ∀ k, (if v.getLsbD (L - 1) then 0xFFFFFFFF#32 >>> L else 0#32).getLsbD k =
      (decide (L + k < 32) && v.getLsbD (L - 1)) := by
    intro k
    rw [hones]
    cases v.getLsbD (L - 1)
    · simp
    · simp only [if_true, BitVec.getLsbD_ushiftRight, BitVec.getLsbD_allOnes, Bool.and_true]
  constructor <;> intro h <;> refine BitVec.eq_of_getLsbD_eq fun k hk => ?_
  · rw [getLsbD_signExtend_setWidth v hL hk]
    split
    next => rfl
    next hge =>
      have hbit := congrArg (BitVec.getLsbD · (k - L)) h
      simp only [BitVec.getLsbD_ushiftRight, hsign, show L + (k - L) = k by omega, hk, decide_true,
        Bool.true_and] at hbit
      exact hbit
  · rw [BitVec.getLsbD_ushiftRight, hsign]
    by_cases hin : L + k < 32
    · rw [h, getLsbD_signExtend_setWidth v hL hin, if_neg (by omega), decide_eq_true hin, Bool.true_and,
        getLsbD_signExtend_setWidth v hL (by omega), if_pos (by omega)]
    · rw [BitVec.getLsbD_of_ge _ _ (by omega), decide_eq_false hin, Bool.false_and]

/-- R121: the block admits exactly the extendable values. -/
theorem justified_iff (hL : 1 ≤ L) (hL32 : L ≤ 32) : justified v L = true ↔ extendable v L := by
  rw [justified, Bool.or_eq_true, Bool.or_eq_true, beq_iff_eq, beq_iff_eq, beq_iff_eq, ushiftRight_eq_zero_iff,
    ushiftRight_eq_sign_iff hL, or_assoc]
  refine or_iff_right_of_imp fun hword => ?_
  subst hword
  exact .inl v.isLt

/-- R120: on an admitted value the block's arithmetic is the library's sign extension of the low L bits. -/
theorem signExtendBits_of_extendable (hL : 1 ≤ L) (hL32 : L ≤ 32) (h : extendable v L) :
    signExtendBits v L = (v.setWidth L).signExtend 32 := by
  obtain rfl | hlt := hL32.eq_or_lt
  · simp [signExtendBits, BitVec.signExtend_eq]
  refine BitVec.eq_of_getLsbD_eq fun k hk => ?_
  rw [getLsbD_signExtend_setWidth v hL hk, BitVec.getLsbD_eq_getElem hk, getElem_signExtendBits v L k hlt hk,
    ← BitVec.getLsbD_eq_getElem hk]
  split
  next hlow => rw [decide_eq_false (by omega), Bool.false_and, Bool.or_false]
  next hhigh =>
    rw [decide_eq_true (by omega), Bool.true_and]
    obtain hright | hext := h
    · have hbit : v.getLsbD k = false :=
        Nat.testBit_lt_two_pow (hright.trans_le (Nat.pow_le_pow_right (by decide) (by omega)))
      rw [hbit, Bool.false_or]
    · have hbit := getLsbD_signExtend_setWidth v hL hk
      rw [← hext, if_neg hhigh] at hbit
      rw [hbit, Bool.or_self]

end Extend

/-- R120, R121: when `sign_extend` answers, and what. -/
theorem signExtend_eq_ok_iff {v u : Word} {l : Int} :
    signExtend v l = .ok u ↔
      (1 ≤ l ∧ l ≤ 32) ∧ extendable v l.toNat ∧ u = (v.setWidth l.toNat).signExtend 32 := by
  unfold signExtend
  split
  next hlen => exact iff_of_false (fun h => nomatch h) fun h => by omega
  next hlen =>
    have hL : 1 ≤ l.toNat := by omega
    have hL32 : l.toNat ≤ 32 := by omega
    simp only [justified_iff hL hL32]
    split
    next hadm =>
      rw [signExtendBits_of_extendable hL hL32 hadm, Except.ok.injEq, eq_comm (a := u)]
      exact ⟨fun h => ⟨by omega, hadm, h⟩, fun h => h.2.2⟩
    next hadm => exact iff_of_false (fun h => nomatch h) fun h => hadm h.2.1

/-! ## One step of `sign_extend` -/

/-- Settles O25: the request is one that `signExtend_eq_ok_iff` answers. -/
theorem signExtendExtendsAdmittedValues : Obligations.SignExtendExtendsAdmittedValues := by
  intro s v l hlatch hl hl32 hadm
  have hok := signExtend_eq_ok_iff.2 ⟨⟨hl, hl32⟩, hadm, rfl⟩
  exact (step_issueNext s (.signExtend v l)).trans (serveSignExtend_next_iff.2 ⟨hlatch, _, hok, rfl⟩)

/-- R121: a request that `signExtend` refuses ends the step in that refusal. -/
theorem step_issued_signExtend_of_error {s : State} {v : Word} {l : Int} {r : Refusal} (hlatch : s.faultLatch = none)
    (h : signExtend v l = .error r) : step (issued (.signExtend v l) s) = .refused r := by
  have hserve : serveSignExtend v l s = refuse r s := by rw [serveSignExtend, h]
  exact (step_issueNext s (.signExtend v l)).trans (hserve.trans (refuse_of_none hlatch r))

/-- Settles O26: the length is checked first, then the value, by `justified_iff`. -/
theorem signExtendRefusesOtherRequests : Obligations.SignExtendRefusesOtherRequests := by
  intro s v l hlatch
  refine ⟨fun hlen => ?_, fun hl hl32 hnot => ?_⟩ <;> refine step_issued_signExtend_of_error hlatch ?_
  · rw [signExtend, if_pos hlen]
  · have hnj := mt (justified_iff (v := v) (L := l.toNat) (by omega) (by omega)).1 hnot
    rw [signExtend, if_neg (by omega), if_neg hnj]

/-! ## The laws (R123) -/

/-- Settles O27: the result's bits are `getLsbD_signExtend_setWidth`'s; its low bits are the value's, so it is its own
extension. -/
theorem signExtendObeysItsLaws : Obligations.SignExtendObeysItsLaws := by
  intro v u l h
  obtain ⟨⟨hl, hl32⟩, -, rfl⟩ := signExtend_eq_ok_iff.1 h
  have hL : 1 ≤ l.toNat := by omega
  have hlow := setWidth_signExtend_setWidth v hL (by omega)
  refine ⟨signExtend_eq_ok_iff.2 ⟨⟨hl, hl32⟩, .inr ?_, ?_⟩, hlow, fun k hk hk32 => ?_⟩
  · rw [hlow]
  · rw [hlow]
  · rw [getLsbD_signExtend_setWidth v hL hk32, if_neg (by omega)]

/-! ## The router (R122) -/

/-- A raw immediate is right-justified in its own width, so the router's request is admitted. -/
theorem signExtend_setWidth {n : Nat} (raw : BitVec n) (hn : 1 ≤ n) (hn32 : n < 32) :
    signExtend (raw.setWidth 32) n = .ok (signExtendBits (raw.setWidth 32) n) := by
  have hadm : extendable (raw.setWidth 32) n :=
    .inl (BitVec.toNat_setWidth_of_le hn32.le ▸ raw.isLt)
  refine signExtend_eq_ok_iff.2 ⟨by omega, hadm, signExtendBits_of_extendable hn hn32.le hadm⟩

/-- Settles O28: the router's four requests are `signExtend_setWidth`'s, at the immediates' own widths. -/
theorem routerRequestsAreNeverRefused : Obligations.RouterRequestsAreNeverRefused :=
  fun w =>
    ⟨signExtend_setWidth (Extract.immIRaw w) (by decide) (by decide),
      signExtend_setWidth (Extract.immSRaw w) (by decide) (by decide),
      signExtend_setWidth (Extract.immBRaw w) (by decide) (by decide),
      signExtend_setWidth (Extract.immJRaw w) (by decide) (by decide), rfl⟩

/-! ## The halves of `li` (R78) -/

/-- A word whose low 12 bits are 0 is the U immediate of its high 20. -/
theorem upperOf_extractLsb' {d : Word} (h : d.setWidth 12 = 0#12) : upperOf (d.extractLsb' 12 20) = d := by
  rw [upperOf, ← immU_eq_append]
  refine BitVec.eq_of_getLsbD_eq fun k hk => ?_
  rw [getLsbD_immU]
  by_cases hlow : k < 12
  · have hbit : d.getLsbD k = false := by simpa [hlow] using congrArg (BitVec.getLsbD · k) h
    rw [hbit, Bool.and_false]
  · rw [decide_eq_true (by omega), Bool.true_and]

/-- Settles O52: taking the extended low part away leaves twelve zeros, so the high part loses nothing and the sum
restores the constant. -/
theorem liSplitsRebuildTheConstant : Obligations.LiSplitsRebuildTheConstant := by
  intro imm
  have hlow : (imm - (liLow imm).signExtend 32).setWidth 12 = 0#12 := by
    have hsum := congrArg (BitVec.setWidth 12) (BitVec.sub_add_cancel imm ((liLow imm).signExtend 32))
    have hkept : ((liLow imm).signExtend 32).setWidth 12 = imm.setWidth 12 :=
      setWidth_signExtend_setWidth imm (by decide) (by decide)
    rw [BitVec.setWidth_add _ _ (by decide), hkept] at hsum
    exact add_eq_right.1 hsum
  rw [liHigh, upperOf_extractLsb' hlow, BitVec.sub_add_cancel]

end Sys2Proof.Machine
end

section
/-! What MemRead gives back, and the accesses that read (20_memory.md R40 to R51; 43_memory_unit.md R171 to R177). -/

namespace Sys2Proof.Machine

/-! ## MemRead, bit by bit (R41, R43) -/

/-- The loop shifts the bits it was given above the `n` bytes that it reads. -/
theorem getLsbD_memReadFrom (m : Memory) (a n : Nat) (acc : Word) {k : Nat} (hk : k < 32) :
    (memReadFrom m a n acc).getLsbD k =
      if k < 8 * n then (bankByte m (a + k / 8)).getLsbD (k % 8) else acc.getLsbD (k - 8 * n) := by
  induction n generalizing acc with
  | zero => rfl
  | succ n ih =>
    rw [memReadFrom, ih]
    by_cases hold : k < 8 * n
    · rw [if_pos hold, if_pos (by omega)]
    rw [if_neg hold, BitVec.getLsbD_or, BitVec.getLsbD_shiftLeft, BitVec.getLsbD_setWidth,
      decide_eq_true (show k - 8 * n < 32 by omega), Bool.true_and, Bool.true_and]
    by_cases hnew : k < 8 * (n + 1)
    · rw [if_pos hnew, decide_eq_true (by omega), Bool.not_true, Bool.false_and, Bool.false_or,
        show k / 8 = n by omega, show k % 8 = k - 8 * n by omega]
    · rw [if_neg hnew, decide_eq_false (by omega), Bool.not_false, Bool.true_and,
        BitVec.getLsbD_of_ge (bankByte m (a + n)) _ (by omega), Bool.or_false,
        show k - 8 * n - 8 = k - 8 * (n + 1) by omega]

/-- R41, R43: bit k of the value is bit k mod 8 of byte k / 8, and 0 above the bytes read. -/
theorem getLsbD_memRead (m : Memory) (a n : Nat) {k : Nat} (hk : k < 32) :
    (memRead m a n).getLsbD k = (decide (k < 8 * n) && (bankByte m (a + k / 8)).getLsbD (k % 8)) := by
  rw [memRead, getLsbD_memReadFrom m a n 0 hk]
  by_cases h : k < 8 * n <;> simp [h]

theorem extractLsb'_memRead (m : Memory) (a : Nat) {n i : Nat} (hi : i < n) (hn : n ≤ 4) :
    (memRead m a n).extractLsb' (8 * i) 8 = bankByte m (a + i) :=
  extractLsb'_eq_of_getLsbD fun k hk => by
    rw [getLsbD_memRead m a n (by omega), decide_eq_true (by omega), Bool.true_and,
      show (8 * i + k) / 8 = i by omega, show (8 * i + k) % 8 = k by omega]

theorem getLsbD_memRead_of_ge (m : Memory) (a : Nat) {n k : Nat} (hk : 8 * n ≤ k) :
    (memRead m a n).getLsbD k = false := by
  by_cases h32 : k < 32
  · rw [getLsbD_memRead m a n h32, decide_eq_false (by omega), Bool.false_and]
  · exact BitVec.getLsbD_of_ge _ k (by omega)

/-- Settles O30: the bytes and the zeros are `getLsbD_memRead`'s two ranges of bits. -/
theorem memReadIsLittleEndianAndZeroExtended : Obligations.MemReadIsLittleEndianAndZeroExtended := by
  intro m a n hn _
  have hn4 : n ≤ 4 := by
    simp only [List.mem_cons, List.not_mem_nil, or_false] at hn
    omega
  exact ⟨fun i hi => extractLsb'_memRead m a hi hn4, fun k hk => getLsbD_memRead_of_ge m a hk⟩

/-- R42 then R41 at one address and count: the value's low bytes, zero-extended. -/
theorem memRead_memWrite {m : Memory} (hm : m.wf) (a n : Nat) (v : Word) :
    memRead (memWrite m a n v) a n = (v.setWidth (8 * n)).setWidth 32 := by
  refine BitVec.eq_of_getLsbD_eq fun k hk => ?_
  rw [getLsbD_memRead _ a n hk, BitVec.getLsbD_setWidth, BitVec.getLsbD_setWidth, decide_eq_true hk, Bool.true_and]
  by_cases hin : k < 8 * n
  · have hbyte : bankByte (memWrite m a n v) (a + k / 8) = storedByte a v (a + k / 8) := by
      rw [bankByte_memWrite hm, if_pos (by omega)]
    rw [hbyte, storedByte, BitVec.getLsbD_extractLsb', decide_eq_true (show k % 8 < 8 by omega), Bool.true_and,
      show 8 * (a + k / 8 - a) + k % 8 = k by omega]
  · rw [decide_eq_false hin, Bool.false_and, Bool.false_and]

/-! ## The canonical form determines the list (R24; log entry 10) -/

/-- The first cell of a canonical bank stands below every other one. -/
theorem Memory.lt_of_wf_cons {c : Host.Cell} {m : Memory} (h : Memory.wf (c :: m)) : ∀ d ∈ m, c.1 < d.1 :=
  (List.pairwise_cons.1 h.1).1

theorem bankByte_cons_self (c : Host.Cell) (m : Memory) : bankByte (c :: m) c.1 = c.2 := by
  simp [bankByte]

/-- A canonical bank reads something at its first cell's address that an unlisted address does not. -/
theorem bankByte_head_ne {c : Host.Cell} {m : Memory} (h : Memory.wf (c :: m)) :
    bankByte (c :: m) c.1 ≠ unlistedByte := by
  rw [bankByte_cons_self]
  exact h.2 c (by simp)

/-- Banks that read alike have no first cell below every cell of the other one. -/
theorem Memory.le_head_of_bankByte_eq {c d : Host.Cell} {m m' : Memory} (h : Memory.wf (c :: m))
    (h' : Memory.wf (d :: m')) (heq : ∀ a, bankByte (c :: m) a = bankByte (d :: m') a) : d.1 ≤ c.1 := by
  refine Nat.le_of_not_lt fun hlt => bankByte_head_ne h ((heq c.1).trans (bankByte_of_lt fun e he => ?_))
  rcases List.mem_cons.1 he with rfl | he
  · exact hlt
  · exact hlt.trans (Memory.lt_of_wf_cons h' e he)

/-- Settles O31, by induction on both lists: equal first addresses by `le_head_of_bankByte_eq` both ways, then equal
first bytes, and the tails read alike too. -/
theorem banksThatReadAlikeAreEqual : Obligations.BanksThatReadAlikeAreEqual := by
  intro m
  induction m with
  | nil =>
    rintro (_ | ⟨d, m'⟩) - h' heq
    · rfl
    · exact absurd (heq d.1).symm (bankByte_head_ne h')
  | cons c m ih =>
    rintro (_ | ⟨d, m'⟩) h h' heq
    · exact absurd (heq c.1) (bankByte_head_ne h)
    have haddr : c.1 = d.1 :=
      le_antisymm (Memory.le_head_of_bankByte_eq h' h fun a => (heq a).symm) (Memory.le_head_of_bankByte_eq h h' heq)
    have hbyte : c.2 = d.2 := by
      rw [← bankByte_cons_self c m, heq, haddr, bankByte_cons_self]
    obtain rfl : c = d := Prod.ext haddr hbyte
    have htail : ∀ a, bankByte m a = bankByte m' a := by
      intro a
      by_cases ha : c.1 = a
      · subst ha
        rw [bankByte_of_lt (Memory.lt_of_wf_cons h), bankByte_of_lt (Memory.lt_of_wf_cons h')]
      · simpa [bankByte, ha] using heq a
    rw [ih m' (Memory.wf_tail h) (Memory.wf_tail h') htail]

/-! ## One access (R161, R171, R173, R176) -/

/-- Settles O33: the read path answers MemRead of the bank. -/
theorem readWithWritebackAnswersTheBytes : Obligations.ReadWithWritebackAnswersTheBytes := by
  intro s a v f n hlatch hr hw hwb hn ha
  have hstep := step_issued_access_read v hlatch hn ha hr hw
  rw [hwb, if_pos rfl] at hstep
  have hn4 : n.toNat ≤ 4 := by omega
  exact ⟨_, hstep, fun i hi => extractLsb'_memRead s.bank a.toNat (by omega) hn4,
    fun k hk => getLsbD_memRead_of_ge s.bank a.toNat (by omega)⟩

/-- Settles O36: the bounds check of `step_issued_access_of_not_inBounds`, whatever the path would be. -/
theorem accessBeyondTheBankRaisesOutOfBounds : Obligations.AccessBeyondTheBankRaisesOutOfBounds :=
  fun _ _ v _ _ hlatch hn hf ha => step_issued_access_of_not_inBounds v hlatch hn hf ha

/-- Settles O37: the width refusal of `step_issued_access_of_not_legalWidth`, which asks nothing else. -/
theorem otherWidthsAreRefused : Obligations.OtherWidthsAreRefused :=
  fun _ _ v _ _ hlatch hn => step_issued_access_of_not_legalWidth v hlatch hn

/-- R33: which packed values have Read and Write, Write alone, and Read with WritebackToRegister alone. -/
theorem flagsUnpack_conflict_iff :
    ∀ p : BitVec 3, ((flagsUnpack p).read = true ∧ (flagsUnpack p).write = true) ↔ (p = 0b011#3 ∨ p = 0b111#3) := by
  decide

theorem flagsUnpack_write_iff :
    ∀ p : BitVec 3, ((flagsUnpack p).read = false ∧ (flagsUnpack p).write = true) ↔ (p = 0b001#3 ∨ p = 0b101#3) := by
  decide

theorem flagsUnpack_read_writeback_iff :
    ∀ p : BitVec 3, ((flagsUnpack p).read = true ∧ (flagsUnpack p).write = false ∧ (flagsUnpack p).writeback = true) ↔
      p = 0b110#3 := by
  decide

/-- Settles O40: the `flagsUnpack_…_iff` lemmas turn each row of the table into the check or the path that it takes; the
last row is `plainReadAndNoOpAnswerTheAddress`. -/
theorem packedFlagsHaveTheirOutcomes : Obligations.PackedFlagsHaveTheirOutcomes := by
  intro s a v p n hlatch hn
  simp only [← flagsUnpack_conflict_iff p, ← flagsUnpack_write_iff p, ← flagsUnpack_read_writeback_iff p]
  split
  next hconflict => exact step_issued_access_of_conflict v hlatch hn hconflict.1 hconflict.2
  next hnoConflict =>
    split
    next hout => exact step_issued_access_of_not_inBounds v hlatch hn hnoConflict hout
    next hin =>
      have ha := not_not.1 hin
      split
      next hwrite => exact step_issued_access_write v hlatch hn ha hwrite.1 hwrite.2
      next hnoWrite =>
        split
        next hread =>
          have hstep := step_issued_access_read v hlatch hn ha hread.1 hread.2.1
          rwa [hread.2.2, if_pos rfl] at hstep
        next hnoRead =>
          have hw : (flagsUnpack p).write = false := by
            cases hr : (flagsUnpack p).read <;> simp_all
          exact plainReadAndNoOpAnswerTheAddress s a v _ n hlatch hw (fun hr => by simpa [hr, hw] using hnoRead) hn ha

/-! ## A write, then a read (R44, R51) -/

/-- The run of a write and a read with writeback at one address and width. -/
theorem run_write_read {s : State} {a : Word} {n : Int} (v u : Word) (hlatch : s.faultLatch = none) (hwf : s.bank.wf)
    (hn : legalWidth n) (ha : inBounds a n) :
    Host.Core.run Sys2Proof.core 2
        (issued (.access a v ⟨true, false, false⟩ n) (issued (.access a u ⟨false, true, true⟩ n) s)) =
      .next { s with
        bank := memWrite s.bank a.toNat n.toNat v
        response := some (.ok (.accessed ((v.setWidth (8 * n.toNat)).setWidth 32))) } := by
  have hwrite := step_issued_access_write (s := issued (.access a u ⟨false, true, true⟩ n) s)
    (f := ⟨true, false, false⟩) v hlatch hn ha rfl rfl
  have hread := step_issued_access_read
    (s := { s with bank := memWrite s.bank a.toNat n.toNat v, response := some (.ok (.accessed a)) })
    (f := ⟨false, true, true⟩) u hlatch hn ha rfl rfl
  rw [run_succ_of_next 1 hwrite]
  refine (run_succ_of_next 0 hread).trans ?_
  rw [if_pos rfl, memRead_memWrite hwf]
  rfl

/-- Settles O41: the run of `run_write_read`. -/
theorem readAfterWriteReturnsTheValue : Obligations.ReadAfterWriteReturnsTheValue :=
  fun _ _ v u _ hlatch hwf hn ha => ⟨_, run_write_read v u hlatch hwf hn ha⟩

end Sys2Proof.Machine
end

section
/-! What the Decoder and the Classifier emit (42_classifier_decoder.md R131 to R149), and the names of the decoded words
(30_encoding.md R73, R77). -/

namespace Sys2Proof.Machine

/-! ## The meanings of the instructions (R140 to R149) -/

/-- With no fault latched, every instruction completes with its opcode and variant, and changes nothing else. -/
theorem exec_of_none {s : State} (hlatch : s.faultLatch = none) (i : Instr) :
    exec i s = .next { s with response := some (.ok (.decoded ⟨opcodeOf i, emittedVariant i⟩)) } :=
  exec_next_iff.2 ⟨hlatch, rfl⟩

/-- Settles O16: the four I-format instructions emit `routeIS` of their immediate, which is its sign extension. -/
theorem iFormatInstructionsEmitTheirFields : Obligations.IFormatInstructionsEmitTheirFields := by
  intro s imm rs1 rd funct3 hlatch
  rw [← routeIS_eq_signExtend]
  exact ⟨exec_of_none hlatch (.load imm rs1 rd funct3), exec_of_none hlatch (.opImm imm rs1 rd funct3),
    exec_of_none hlatch (.jalr imm rs1 rd funct3), exec_of_none hlatch (.system imm rs1 rd funct3)⟩

/-- Settles O17: each immediate is routed by its own format. -/
theorem storeBranchAndJalEmitTheirFields : Obligations.StoreBranchAndJalEmitTheirFields := by
  intro s imm12 imm13 imm21 rs2 rs1 rd funct3 hlatch
  rw [← routeIS_eq_signExtend, ← routeB_eq_signExtend, ← routeJ_eq_signExtend]
  exact ⟨exec_of_none hlatch (.store imm12 rs2 rs1 funct3), exec_of_none hlatch (.branch imm13 rs2 rs1 funct3),
    exec_of_none hlatch (.jal imm21 rd)⟩

/-- Settles O18: OP has no immediate and the U immediate passes the router as it stands. -/
theorem opAndUpperInstructionsEmitTheirFields : Obligations.OpAndUpperInstructionsEmitTheirFields :=
  fun _ funct7 rs2 rs1 rd funct3 imm hlatch =>
    ⟨exec_of_none hlatch (.op funct7 rs2 rs1 rd funct3), exec_of_none hlatch (.lui imm rd),
      exec_of_none hlatch (.auipc imm rd)⟩

/-- Settles O19: where exec goes on, only the response is new. -/
theorem instructionsWriteNoState : Obligations.InstructionsWriteNoState := by
  intro i s t h
  obtain ⟨-, rfl⟩ := exec_next_iff.1 h
  exact ⟨fun _ => rfl, rfl, rfl, rfl⟩

/-! ## One step of `decode` and `classify` -/

theorem step_issued_decode {w : Word} {i : Instr} (s : State) (h : decodeWord w = .ok i) :
    step (issued (.decode w) s) = exec i s := by
  have hserve : serveDecode w s = exec i s := by rw [serveDecode, h]
  exact (step_issueNext s (.decode w)).trans hserve

/-- Settles O13: the step serves `decode` of the word, and the table row's word is such a word. -/
theorem stepRunsTheDecodedInstruction : Obligations.StepRunsTheDecodedInstruction :=
  ⟨fun s _ _ h => step_issued_decode s h, fun s _ _ _ h => step_issued_decode s (decodeWord_of_decodeTableWord h)⟩

/-- Settles O9: the Classifier's answer is the response. -/
theorem classifyRespondsTheOpcode : Obligations.ClassifyRespondsTheOpcode := by
  intro s w o hlatch ho
  have hserve : serveClassify w s = respond (.classified o) s := by rw [serveClassify, ho]
  exact (step_issueNext s (.classify w)).trans (hserve.trans (respond_of_none hlatch (.classified o)))

/-- R132, for `classify`. -/
theorem step_issued_classify_of_classify_error {s : State} {w : Word} {e : DecodeError} (hlatch : s.faultLatch = none)
    (he : classify w = .error e) :
    takesError (step (issued (.classify w) s)) s ⟨.illegalValue, .classify⟩ := by
  have hserve : serveClassify w s = raise ⟨.illegalValue, .classify⟩ s := by rw [serveClassify, he]
  exact (step_issueNext s (.classify w)).trans (hserve.trans (raise_of_none hlatch _))

/-- Settles O10: a word without a legal code does not classify, and both operations raise the Classifier's error. -/
theorem illegalOpcodeRaisesIllegalValue : Obligations.IllegalOpcodeRaisesIllegalValue := by
  intro s w hlatch hillegal
  have herror := classify_eq_error_of_notMem (w := w) hillegal
  exact ⟨step_issued_classify_of_classify_error hlatch herror, step_issued_decode_of_classify_error hlatch herror⟩

/-! ## Which selectors RV32I names (R73, R77) -/

theorem loadName_eq_none_iff : ∀ funct3 : Funct3, loadName funct3 = none ↔ funct3 ∈ [3#3, 6#3, 7#3] := by
  decide

theorem storeName_eq_none_iff :
    ∀ funct3 : Funct3, storeName funct3 = none ↔ funct3 ∈ [3#3, 4#3, 5#3, 6#3, 7#3] := by
  decide

theorem branchName_eq_none_iff : ∀ funct3 : Funct3, branchName funct3 = none ↔ funct3 ∈ [2#3, 3#3] := by
  decide

/-- A selector with one name: any value but 0x00 has none. -/
theorem nameBySelector_none_eq_none_iff (selector : Funct7) (zero : Rv32iName) :
    nameBySelector selector zero none = none ↔ selector ≠ 0x00#7 := by
  unfold nameBySelector
  split <;> simp_all

/-- A selector with two names: any value but 0x00 and 0x20 has none. -/
theorem nameBySelector_some_eq_none_iff (selector : Funct7) (zero alternate : Rv32iName) :
    nameBySelector selector zero (some alternate) = none ↔ selector ∉ [0x00#7, 0x20#7] := by
  unfold nameBySelector
  split
  next h => simp [h]
  next h => split <;> simp_all

/-- The eight values of funct3. -/
theorem funct3_cases (P : Funct3 → Prop) (h : ∀ k : Fin 8, P (BitVec.ofFin k)) (funct3 : Funct3) : P funct3 :=
  h funct3.toFin

/-- Only the shifts read the selector, and only the right shifts have two names. -/
theorem opImmName_eq_none_iff (funct3 : Funct3) (imm : Word) :
    opImmName funct3 imm = none ↔
      (funct3 = 1#3 ∧ imm.extractLsb' 5 7 ≠ 0x00#7) ∨ (funct3 = 5#3 ∧ imm.extractLsb' 5 7 ∉ [0x00#7, 0x20#7]) := by
  rw [opImmName, ← nameBySelector_none_eq_none_iff _ .slli, ← nameBySelector_some_eq_none_iff _ .srli .srai]
  revert funct3
  refine funct3_cases _ fun k => ?_
  fin_cases k <;> simp

/-- ADD and SRL have an alternate, the other six do not. -/
theorem opName_eq_none_iff (funct3 : Funct3) (funct7 : Funct7) :
    opName funct3 funct7 = none ↔
      funct7 ∉ [0x00#7, 0x20#7] ∨ (funct7 = 0x20#7 ∧ funct3 ∉ [0#3, 5#3]) := by
  have hone : ∀ zero, nameBySelector funct7 zero none = none ↔ funct7 ∉ [0x00#7, 0x20#7] ∨ funct7 = 0x20#7 := by
    intro zero
    rw [nameBySelector_none_eq_none_iff]
    constructor
    · intro h
      by_cases halt : funct7 = 0x20#7 <;> simp [h, halt]
    · rintro h rfl
      simp at h
  rw [opName]
  revert funct3
  refine funct3_cases _ fun k => ?_
  fin_cases k <;> simp [hone, nameBySelector_some_eq_none_iff]

/-- Only the two words with every field 0 but imm, and imm 0 or 1, have a name. -/
theorem systemName_eq_none_iff (imm : Word) (rs1 rd : RegIndex) (funct3 : Funct3) :
    systemName imm rs1 rd funct3 = none ↔
      ¬(imm = 0 ∧ rs1 = 0 ∧ funct3 = 0 ∧ rd = 0) ∧ ¬(imm = 1 ∧ rs1 = 0 ∧ funct3 = 0 ∧ rd = 0) := by
  unfold systemName
  split
  next hzero =>
    obtain ⟨rfl, rfl, rfl⟩ := hzero
    split
    next => simp_all
    next => split <;> simp_all
  next hnot =>
    simp only [true_iff]
    tauto

/-! ## The names of the words (R73) -/

/-- The I layout is one to one: a word of its opcode is the word of exactly its own fields. -/
theorem eq_encodeI_iff {w : Word} {o : Opcode} (h : Extract.opcode w = opcodeCode o) (imm : BitVec 12) (rs1 : RegIndex)
    (funct3 : Funct3) (rd : RegIndex) :
    w = encodeI imm rs1 funct3 rd o ↔
      Extract.immIRaw w = imm ∧ Extract.rs1 w = rs1 ∧ Extract.funct3 w = funct3 ∧ Extract.rd w = rd := by
  constructor
  · rintro rfl
    exact fields_encodeI imm rs1 funct3 rd o
  · rintro ⟨rfl, rfl, rfl, rfl⟩
    exact (encodeI_fields h).symm

theorem signExtend_eq_signExtend_iff {a b : BitVec 12} : a.signExtend 32 = b.signExtend 32 ↔ a = b := by
  refine ⟨fun h => BitVec.eq_of_toInt_eq ?_, congrArg _⟩
  have hint := congrArg BitVec.toInt h
  rwa [BitVec.toInt_signExtend_of_le (by decide), BitVec.toInt_signExtend_of_le (by decide)] at hint

/-- R141: the bits 11:5 of an extended I immediate are the word's funct7. -/
theorem extractLsb'_signExtend_immI (w : Word) :
    ((w.extractLsb' 20 12).signExtend 32).extractLsb' 5 7 = w.extractLsb' 25 7 := by
  refine BitVec.eq_of_getLsbD_eq fun k hk => ?_
  simp only [BitVec.getLsbD_extractLsb', BitVec.getLsbD_signExtend]
  rw [decide_eq_true (show 5 + k < 32 by omega), if_pos (by omega), decide_eq_true (show 5 + k < 12 by omega),
    show 20 + (5 + k) = 25 + k by omega, Bool.true_and, Bool.true_and]

theorem rv32iName_variantFromBits_eq_none_iff {w : Word} {o : Opcode} (ho : classify w = .ok o) :
    rv32iName ⟨o, variantFromBits (formatOf o) w⟩ = none ↔ unassignedWord o w := by
  cases o with
  | load => exact loadName_eq_none_iff _
  | store => exact storeName_eq_none_iff _
  | branch => exact branchName_eq_none_iff _
  | jalr => exact ite_eq_right_iff.trans (by simp [unassignedWord])
  | op => exact opName_eq_none_iff _ _
  | opImm =>
    refine (opImmName_eq_none_iff _ _).trans ?_
    rw [extractLsb'_signExtend_immI]
    rfl
  | auipc | lui | jal => exact iff_of_false (fun h => nomatch h) id
  | system =>
    have hcode := classify_eq_ok_iff.1 ho
    have hecall := eq_encodeI_iff hcode 0 0 0 0
    have hebreak := eq_encodeI_iff hcode 1 0 0 0
    rw [← signExtend_eq_signExtend_iff] at hecall hebreak
    exact (systemName_eq_none_iff _ _ _ _).trans (and_congr (not_congr hecall.symm) (not_congr hebreak.symm))

/-- Settles O20: a legal word decodes to its variant, whose name `rv32iName_variantFromBits_eq_none_iff` judges. -/
theorem unassignedWordsDecodeWithoutAName : Obligations.UnassignedWordsDecodeWithoutAName :=
  fun _ _ _ hlatch ho => ⟨_, step_issued_decode_of_classify hlatch ho, rv32iName_variantFromBits_eq_none_iff ho⟩

end Sys2Proof.Machine
end

section
/-! What an operation does, said once with the caller's contract (70_reset_and_hazards.md R234 to R236), and what
follows of the invariant and of errors (20_memory.md R51; 60_exceptions.md R200 to R206). -/

namespace Sys2Proof.Machine

variable {s t : State} {r : Request}

/-! ## The bank after an operation -/

/-- The bank that an operation without an error leaves (R172). -/
def bankAfter (m : Memory) : Request → Memory
  | .access a v f n => if f.write = true ∧ f.read = false then memWrite m a.toNat n.toNat v else m
  | .wordFromBytes _ _ _ _ => m
  | .extract _ _ => m
  | .signExtend _ _ => m
  | .classify _ => m
  | .decode _ => m

section Access

variable (m : Memory) (a v : Word) {f : MemoryFlags} (n : Int)

theorem bankAfter_write (h : f.write = true ∧ f.read = false) :
    bankAfter m (.access a v f n) = memWrite m a.toNat n.toNat v := if_pos h

theorem bankAfter_of_not_write (h : ¬(f.write = true ∧ f.read = false)) : bankAfter m (.access a v f n) = m := if_neg h

end Access

theorem bankAfter_of_not_access (m : Memory) (h : ∀ a v f n, r ≠ .access a v f n) : bankAfter m r = m := by
  cases r with
  | access a v f n => exact absurd rfl (h a v f n)
  | _ => rfl

theorem bankAfter_wf {m : Memory} (hm : m.wf) (r : Request) : (bankAfter m r).wf := by
  cases r with
  | access a v f n =>
    by_cases hwrite : f.write = true ∧ f.read = false
    · exact bankAfter_write m a v n hwrite ▸ memWrite_wf hm _ _ v
    · rwa [bankAfter_of_not_write m a v n hwrite]
  | _ => exact hm

/-- An admitted write without an error ends inside the bank. -/
theorem bankAfter_inBank {m : Memory} (hm : m.inBank) (hkept : contractKept r) (hfree : errorFree r) :
    (bankAfter m r).inBank := by
  cases r with
  | access a v f n =>
    have hfits : a.toNat + n.toNat ≤ Config.bankSize := by
      rw [Config.bankSize]
      obtain ⟨-, ha⟩ := hfree
      obtain rfl | rfl | rfl := hkept <;> omega
    by_cases hwrite : f.write = true ∧ f.read = false
    · exact bankAfter_write m a v n hwrite ▸ memWrite_inBank hm hfits v
    · rwa [bankAfter_of_not_write m a v n hwrite]
  | _ => exact hm

/-- R42, R172: the operation leaves the byte it writes at an address, or the one that was there. -/
theorem bankByte_bankAfter {m : Memory} (hm : m.wf) (r : Request) (a : Nat) :
    bankByte (bankAfter m r) a = (writtenByte a r).getD (bankByte m a) := by
  cases r with
  | access ad v f n =>
    rw [writtenByte]
    by_cases hwrite : f.write = true ∧ f.read = false
    · rw [bankAfter_write m ad v n hwrite, bankByte_memWrite hm]
      have hrange : (f.write = true ∧ f.read = false ∧ ad.toNat ≤ a ∧ (a : Int) < ad.toNat + n) ↔
          (ad.toNat ≤ a ∧ a < ad.toNat + n.toNat) := by
        simp only [hwrite, true_and]
        omega
      simp only [hrange]
      split <;> rfl
    · rw [bankAfter_of_not_write m ad v n hwrite, if_neg fun h => hwrite ⟨h.1, h.2.1⟩]
      rfl
  | _ => rfl

/-! ## The Decoder's result (R29) -/

theorem extractLsb'_signExtend {n : Nat} (raw : BitVec n) (hn : n ≤ 32) : (raw.signExtend 32).extractLsb' 0 n = raw :=
  extractLsb'_eq_of_getLsbD fun k hk => by
    rw [Nat.zero_add, BitVec.getLsbD_signExtend, decide_eq_true (by omega), if_pos hk, Bool.true_and]

theorem getLsbD_zero_signExtend {n : Nat} (raw : BitVec (n + 1)) : (raw.signExtend 32).getLsbD 0 = raw.getLsbD 0 := by
  rw [BitVec.getLsbD_signExtend, decide_eq_true (by decide), if_pos n.succ_pos, Bool.true_and]

/-- R29: the variant cut from a word is a sound sum type, with its immediate in its variant's form. -/
theorem decodedWf_variantFromBits (o : Opcode) (w : Word) : decodedWf ⟨o, variantFromBits (formatOf o) w⟩ := by
  refine ⟨variantFormat_variantFromBits _ w, ?_⟩
  cases formatOf o with
  | r => trivial
  | i | s => exact (congrArg _ (extractLsb'_signExtend _ (by decide))).symm
  | b =>
    exact ⟨(congrArg _ (extractLsb'_signExtend (Extract.immBRaw w) (by decide))).symm,
      (getLsbD_zero_signExtend (Extract.immBRaw w)).trans (getLsbD_immBRaw w 0)⟩
  | u =>
    have hupper : upperImm (Extract.immU w) := extractInstr_wellFormed .lui w
    rwa [immU_eq_append] at hupper
  | j =>
    exact ⟨(congrArg _ (extractLsb'_signExtend (Extract.immJRaw w) (by decide))).symm,
      (getLsbD_zero_signExtend (Extract.immJRaw w)).trans (getLsbD_immJRaw w 0)⟩

/-- What the Decoder emits is a sound sum type; the other operations answer no such value. -/
def soundResult : Result → Prop
  | .decoded d => decodedWf d
  | .word _ => True
  | .field _ => True
  | .extended _ => True
  | .classified _ => True
  | .accessed _ => True

/-! ## What an operation can do -/

/-- What an operation can do when it goes on (R202, R234, R236): its request keeps the caller's contract, and it either
completes with a sound result and the bank of `bankAfter`, or takes one of R200's errors. -/
theorem serve_next_cases (h : serve r s = .next t) :
    s.faultLatch = none ∧ contractKept r ∧
      ((errorFree r ∧ ∃ p, soundResult p ∧
          t = { s with bank := bankAfter s.bank r, response := some (.ok p) }) ∨
        (¬errorFree r ∧ ∃ e ∈ raisedErrors, t = { s with faultLatch := some e, response := some (.fault e) })) := by
  cases r with
  | wordFromBytes =>
    obtain ⟨hlatch, rfl⟩ := respond_next_iff.1 h
    exact ⟨hlatch, trivial, .inl ⟨trivial, .word _, trivial, rfl⟩⟩
  | extract =>
    obtain ⟨hlatch, rfl⟩ := respond_next_iff.1 h
    exact ⟨hlatch, trivial, .inl ⟨trivial, .field _, trivial, rfl⟩⟩
  | signExtend v l =>
    obtain ⟨hlatch, u, hu, rfl⟩ := serveSignExtend_next_iff.1 h
    obtain ⟨⟨hl, hl32⟩, hadm, -⟩ := signExtend_eq_ok_iff.1 hu
    exact ⟨hlatch, ⟨hl, hl32, hadm⟩, .inl ⟨trivial, .extended u, trivial, rfl⟩⟩
  | classify w =>
    obtain ⟨hlatch, ⟨o, ho, rfl⟩ | ⟨⟨e, he⟩, rfl⟩⟩ := serveClassify_next_cases h
    · exact ⟨hlatch, trivial, .inl ⟨exists_classify_ok_iff.1 ⟨o, ho⟩, .classified o, trivial, rfl⟩⟩
    · exact ⟨hlatch, trivial, .inr ⟨notMem_legalCodes_of_classify_error he, ⟨.illegalValue, .classify⟩, by decide, rfl⟩⟩
  | decode w =>
    obtain ⟨hlatch, ⟨o, ho, rfl⟩ | ⟨⟨e, he⟩, rfl⟩⟩ := serveDecode_next_cases h
    · refine ⟨hlatch, trivial, .inl ⟨exists_classify_ok_iff.1 ⟨o, ho⟩, _, ?_, rfl⟩⟩
      rw [emittedVariant_extractInstr]
      exact decodedWf_variantFromBits o w
    · exact ⟨hlatch, trivial, .inr ⟨notMem_legalCodes_of_classify_error he, ⟨.illegalValue, .classify⟩, by decide, rfl⟩⟩
  | access a v f n =>
    obtain ⟨hlatch, w, hw, hcases⟩ := serveAccess_next_cases h
    obtain rfl := widthOfCount_eq_some_iff.1 hw
    refine ⟨hlatch, legalWidth_iff_exists_widthBytes.2 ⟨w, rfl⟩, ?_⟩
    obtain ⟨hc, rfl⟩ | ⟨-, hfits, rfl⟩ | ⟨hc, hfits, hr, rfl⟩ | ⟨hfits, hr, hwr, rfl⟩ | ⟨hfits, hr, hwr, rfl⟩ := hcases
    · exact .inr ⟨fun hfree => hfree.1 (flagsConflict_iff.1 hc), _, by decide, rfl⟩
    · exact .inr ⟨fun hfree => by simp [accessFits_iff.2 hfree.2] at hfits, _, by decide, rfl⟩
    · have hfree : ¬(f.read = true ∧ f.write = true) := mt flagsConflict_iff.2 (by simp [hc])
      have hbank := bankAfter_of_not_write s.bank a v (widthBytes w) (f := f) (by simp [hr])
      exact .inl ⟨⟨hfree, accessFits_iff.1 hfits⟩, .accessed _, trivial, by rw [hbank]; rfl⟩
    · refine .inl ⟨⟨by simp [hr], accessFits_iff.1 hfits⟩, .accessed a, trivial, ?_⟩
      rw [bankAfter_write s.bank a v _ ⟨hwr, hr⟩]
      rfl
    · refine .inl ⟨⟨by simp [hr], accessFits_iff.1 hfits⟩, .accessed a, trivial, ?_⟩
      rw [bankAfter_of_not_write s.bank a v _ (by simp [hwr])]
      rfl

/-- R234: an admitted operation goes on where its request keeps the contract. -/
theorem exists_serve_next (hlatch : s.faultLatch = none) (hkept : contractKept r) : ∃ t, serve r s = .next t := by
  cases r with
  | wordFromBytes | extract => exact ⟨_, respond_of_none hlatch _⟩
  | signExtend v l =>
    obtain ⟨hl, hl32, hadm⟩ := hkept
    exact ⟨_, serveSignExtend_next_iff.2 ⟨hlatch, _, signExtend_eq_ok_iff.2 ⟨⟨hl, hl32⟩, hadm, rfl⟩, rfl⟩⟩
  | classify w =>
    cases hc : classify w with
    | ok o => exact ⟨_, classifyRespondsTheOpcode s w o hlatch hc⟩
    | error e => exact ⟨_, step_issued_classify_of_classify_error hlatch hc⟩
  | decode w =>
    cases hc : classify w with
    | ok o => exact ⟨_, step_issued_decode_of_classify hlatch hc⟩
    | error e => exact ⟨_, step_issued_decode_of_classify_error hlatch hc⟩
  | access a v f n =>
    by_cases hf : f.read = true ∧ f.write = true
    · exact ⟨_, step_issued_access_of_conflict v hlatch hkept hf.1 hf.2⟩
    by_cases ha : inBounds a n
    case neg => exact ⟨_, step_issued_access_of_not_inBounds v hlatch hkept hf ha⟩
    cases hr : f.read with
    | true => exact ⟨_, step_issued_access_read v hlatch hkept ha hr (by simpa [hr] using hf)⟩
    | false =>
      cases hw : f.write with
      | true => exact ⟨_, step_issued_access_write v hlatch hkept ha hr hw⟩
      | false => exact ⟨_, step_issued_access_noOp v hlatch hkept ha hr hw⟩

/-- Settles O46: `exists_serve_next` and, for the other direction and the errors, `serve_next_cases`. -/
theorem operationsCompleteWhenTheContractIsKept : Obligations.OperationsCompleteWhenTheContractIsKept := by
  refine fun s r hlatch => ⟨⟨?_, exists_serve_next hlatch⟩, fun t ht => ?_⟩
  · rintro ⟨t, ht⟩
    exact (serve_next_cases ht).2.1
  · obtain ⟨-, -, ⟨hfree, p, -, rfl⟩ | ⟨herror, e, -, rfl⟩⟩ := serve_next_cases (s := s) ht
    · exact ⟨iff_of_true hlatch hfree, rfl⟩
    · exact ⟨iff_of_false nofun herror, rfl⟩

/-! ## What a step can do -/

/-- A step that goes on is idle, or serves the oldest request as `serve_next_cases` says. -/
theorem step_next_cases (h : step s = .next t) :
    s.faultLatch = none ∧
      ((s.requests = [] ∧ t = { s with response := none }) ∨
        ∃ r rest, s.requests = r :: rest ∧ contractKept r ∧
          ((errorFree r ∧ ∃ p, soundResult p ∧
              t = { s with bank := bankAfter s.bank r, requests := rest, response := some (.ok p) }) ∨
            (¬errorFree r ∧ ∃ e ∈ raisedErrors,
              t = { s with faultLatch := some e, requests := rest, response := some (.fault e) }))) := by
  obtain ⟨hnone, hidle⟩ | ⟨r, rest, hsome, hserve⟩ := step_cases s
  · obtain ⟨hlatch, rfl⟩ := idle_next_iff.1 (hidle.symm.trans h)
    exact ⟨hlatch, .inl ⟨hnone, rfl⟩⟩
  · obtain ⟨hlatch, hkept, hcases⟩ := serve_next_cases (hserve.symm.trans h)
    exact ⟨hlatch, .inr ⟨r, rest, hsome, hkept, hcases⟩⟩

/-- R36: a step takes one operation off the caller's list. -/
theorem requests_of_step (h : step s = .next t) : t.requests = s.requests.tail := by
  obtain ⟨-, ⟨hnone, rfl⟩ | ⟨r, rest, hsome, -, ⟨-, p, -, rfl⟩ | ⟨-, e, -, rfl⟩⟩⟩ := step_next_cases h
  · exact hnone.trans (by rw [hnone, List.tail_nil])
  · rw [hsome, List.tail_cons]
  · rw [hsome, List.tail_cons]

/-- Settles O3: an idle step and a completed operation leave the latch empty, the second with a bank and a result that
keep their clauses; an error is one of R200's, and the one reported. -/
theorem everyStepKeepsInvariant : Obligations.EveryStepKeepsInvariant := by
  rintro s t ⟨hwf, hin, -, -, -⟩ hstep
  obtain ⟨hlatch, ⟨-, rfl⟩ | ⟨r, rest, -, hkept, ⟨hfree, p, hp, rfl⟩ | ⟨-, e, he, rfl⟩⟩⟩ := step_next_cases hstep
  · exact ⟨hwf, hin, by simp [hlatch], by simp [hlatch], nofun⟩
  · exact ⟨bankAfter_wf hwf r, bankAfter_inBank hin hkept hfree, by simp [hlatch], by simp [hlatch],
      by rintro d ⟨rfl⟩; exact hp⟩
  · exact ⟨hwf, hin, by simpa using he, by simp, nofun⟩

/-- Settles O54: a completed operation moves its own byte from the pending writes into the bank, where
`bankByte_bankAfter` finds it; an idle step moves nothing. -/
theorem everyStepKeepsWhatTheHistoryLeaves : Obligations.EveryStepKeepsWhatTheHistoryLeaves := by
  intro s t hwf hstep hlatch
  obtain ⟨-, ⟨-, rfl⟩ | ⟨r, rest, hpending, -, ⟨-, p, -, rfl⟩ | ⟨-, e, -, rfl⟩⟩⟩ := step_next_cases hstep
  · exact ⟨hwf, fun _ => rfl⟩
  · refine ⟨bankAfter_wf hwf r, fun a => ?_⟩
    rw [hpending, latestWrite, ← bankByte_bankAfter hwf]
  · cases hlatch

/-- Settles O44: of the cases of `step_next_cases`, only the error's latches one. -/
theorem fatalErrorIsPrecise : Obligations.FatalErrorIsPrecise := by
  intro s t e hnone hstep hlatch
  obtain ⟨-, ⟨-, rfl⟩ | ⟨r, rest, hpending, -, ⟨-, p, -, rfl⟩ | ⟨-, e', he', rfl⟩⟩⟩ := step_next_cases hstep
  · simp [hnone] at hlatch
  · simp [hnone] at hlatch
  · obtain rfl : e' = e := by simpa using hlatch
    refine ⟨he', r, ?_, rfl⟩
    rw [issued, ← hpending]

/-! ## While a fault is latched (R203) -/

theorem serve_of_latched {e : FatalError} (h : s.faultLatch = some e) (r : Request) :
    serve r s = .fault (.runOver e) := by
  have hend := ifAdmitted_of_some h
  cases r with
  | wordFromBytes | extract => exact hend _
  | signExtend v l =>
    simp only [serve, serveSignExtend]
    split <;> exact hend _
  | classify w =>
    simp only [serve, serveClassify]
    split <;> exact hend _
  | decode w =>
    simp only [serve, serveDecode]
    split
    · rw [exec_eq_emit]
      exact hend _
    · exact hend _
  | access a v f n =>
    simp only [serve, serveAccess, accessPath]
    split
    · exact hend _
    · split_ifs
      case pos => exact hend _
      case pos => exact hend _
      case pos => exact ifAdmitted_of_some (s := s.withBank _) h _
      case neg => exact hend _
      case neg => exact hend _

/-- Settles O43: an idle step, every operation and every instruction is admitted first. -/
theorem latchedFaultAdmitsNothing : Obligations.LatchedFaultAdmitsNothing := by
  refine fun s e h => ⟨?_, fun i => (exec_eq_emit i s).trans (ifAdmitted_of_some h _)⟩
  obtain ⟨-, hidle⟩ | ⟨r, rest, -, hserve⟩ := step_cases s
  · exact hidle.trans (ifAdmitted_of_some h _)
  · exact hserve.trans (serve_of_latched (s := s.withRequests rest) h r)

/-- Settles O38: the checks in their order, for each operation that has one, and the one response of a latching step. -/
theorem flagsErrorComesBeforeBoundsError : Obligations.FlagsErrorComesBeforeBoundsError := by
  refine ⟨fun s a v f n t hnone hr hw _ hstep => ?_, fun s w t e hnone hstep hlatch => ?_,
    fun s a v f n hnone hn => step_issued_access_of_not_legalWidth v hnone hn, fun s t e hstep hlatch => ?_⟩
  · obtain ⟨-, hn, -⟩ := serve_next_cases (r := .access a v f n) (s := s) hstep
    obtain rfl := Host.Outcome.next.inj (hstep.symm.trans (step_issued_access_of_conflict v hnone hn hr hw))
    rfl
  · obtain hstep | hstep := hstep
    · obtain ⟨-, ⟨o, -, rfl⟩ | ⟨-, rfl⟩⟩ := serveClassify_next_cases (s := s) hstep
      · simp [hnone] at hlatch
      · simpa using hlatch.symm
    · obtain ⟨-, ⟨o, -, rfl⟩ | ⟨-, rfl⟩⟩ := serveDecode_next_cases (s := s) hstep
      · simp [hnone] at hlatch
      · simpa using hlatch.symm
  · obtain ⟨hnone, -⟩ := step_next_cases hstep
    obtain ⟨-, r, -, ht⟩ := fatalErrorIsPrecise s t e hnone hstep hlatch
    exact ⟨by rw [ht], (latchedFaultAdmitsNothing t e hlatch).1⟩

end Sys2Proof.Machine
end

section
/-! Runs that end well: what they leave in the bank (20_memory.md R51), and the order of two operations (D26). -/

namespace Sys2Proof.Machine

variable {s t : State} {r q : Request}

/-! ## Runs that end well -/

theorem run_succ_next_iff {k : Nat} :
    Host.Core.run Sys2Proof.core (k + 1) s = .next t ↔
      ∃ u, step s = .next u ∧ Host.Core.run Sys2Proof.core k u = .next t := by
  constructor
  · intro h
    cases hstep : step s with
    | next u => exact ⟨u, rfl, (run_succ_of_next k hstep).symm.trans h⟩
    | fault e =>
      have hcore : Host.Core.step Sys2Proof.core s = .fault e := hstep
      simp only [Host.Core.run, hcore] at h
      cases h
    | refused e =>
      have hcore : Host.Core.step Sys2Proof.core s = .refused e := hstep
      simp only [Host.Core.run, hcore] at h
      cases h
  · rintro ⟨u, hstep, hrun⟩
    exact (run_succ_of_next k hstep).trans hrun

theorem endsWell_zero_iff : endsWell 0 s t ↔ s = t ∧ t.faultLatch = none :=
  and_congr_left' ⟨fun h => Host.Outcome.next.inj h, congrArg Host.Outcome.next⟩

/-- A run that ends well goes on from its first step's state. -/
theorem endsWell_succ_iff {k : Nat} : endsWell (k + 1) s t ↔ ∃ u, step s = .next u ∧ endsWell k u t := by
  simp only [endsWell, run_succ_next_iff, ← and_assoc, exists_and_right]

/-- A latched fault never goes away, so a run that ends well starts without one. -/
theorem faultLatch_of_endsWell {k : Nat} (h : endsWell k s t) : s.faultLatch = none := by
  cases k with
  | zero =>
    obtain ⟨rfl, hlatch⟩ := endsWell_zero_iff.1 h
    exact hlatch
  | succ k =>
    obtain ⟨u, hstep, -⟩ := endsWell_succ_iff.1 h
    exact (step_next_cases hstep).1

/-- Settles O42, by induction on the pending operations: `everyStepKeepsWhatTheHistoryLeaves` for the first of them, and
none pending at the end. -/
theorem bankHoldsTheLatestWrites : Obligations.BankHoldsTheLatestWrites := by
  rintro s t hwf - hend a
  generalize hpending : s.requests = rs at hend ⊢
  induction rs generalizing s with
  | nil =>
    obtain ⟨rfl, -⟩ := endsWell_zero_iff.1 hend
    rfl
  | cons r rest ih =>
    obtain ⟨u, hstep, hrest⟩ := endsWell_succ_iff.1 hend
    obtain ⟨hwfu, hkept⟩ := everyStepKeepsWhatTheHistoryLeaves s u hwf hstep (faultLatch_of_endsWell hrest)
    have hu : u.requests = rest := (requests_of_step hstep).trans (by rw [hpending, List.tail_cons])
    rw [ih u hwfu hu hrest, ← hpending, ← hkept, hu]

/-- The first operation of a run that ends well kept its contract, raised nothing, and left its bank. -/
theorem endsWell_issued {k : Nat} (h : endsWell (k + 1) (issued r s) t) :
    (contractKept r ∧ errorFree r) ∧
      ∃ p, endsWell k { s with bank := bankAfter s.bank r, response := some (.ok p) } t := by
  obtain ⟨u, hstep, hrest⟩ := endsWell_succ_iff.1 h
  obtain ⟨-, hkept, ⟨hfree, p, -, rfl⟩ | ⟨-, e, -, rfl⟩⟩ := serve_next_cases (r := r) (s := s) hstep
  · exact ⟨⟨hkept, hfree⟩, p, hrest⟩
  · exact absurd (faultLatch_of_endsWell hrest) nofun

/-- An operation that keeps the contract and raises nothing completes. -/
theorem exists_step_issued (hlatch : s.faultLatch = none) (h : contractKept r ∧ errorFree r) :
    ∃ p, step (issued r s) = .next { s with bank := bankAfter s.bank r, response := some (.ok p) } := by
  obtain ⟨t, ht⟩ := exists_serve_next hlatch h.1
  obtain ⟨-, -, ⟨-, p, -, rfl⟩ | ⟨herror, -⟩⟩ := serve_next_cases ht
  · exact ⟨p, ht⟩
  · exact absurd h.2 herror

/-- Two operations end well exactly when each keeps its contract and raises nothing, whatever the state holds. -/
theorem exists_endsWell_two_iff (hlatch : s.faultLatch = none) :
    (∃ t, endsWell 2 (issued r (issued q s)) t) ↔ (contractKept r ∧ errorFree r) ∧ contractKept q ∧ errorFree q := by
  constructor
  · rintro ⟨t, h⟩
    obtain ⟨hr, p, h⟩ := endsWell_issued h
    exact ⟨hr, (endsWell_issued (s := { s with bank := bankAfter s.bank r, response := some (.ok p) }) h).1⟩
  · rintro ⟨hr, hq⟩
    obtain ⟨p, hstep⟩ := exists_step_issued (s := issued q s) hlatch hr
    obtain ⟨p', hstep'⟩ :=
      exists_step_issued (s := { s with bank := bankAfter s.bank r, response := some (.ok p) }) hlatch hq
    exact ⟨_, endsWell_succ_iff.2 ⟨_, hstep, endsWell_succ_iff.2 ⟨_, hstep', endsWell_zero_iff.2 ⟨rfl, hlatch⟩⟩⟩⟩

theorem bank_of_endsWell_two (h : endsWell 2 (issued r (issued q s)) t) :
    t.bank = bankAfter (bankAfter s.bank r) q ∧ t.requests = s.requests := by
  obtain ⟨-, p, h⟩ := endsWell_issued h
  obtain ⟨-, p', h⟩ := endsWell_issued (s := { s with bank := bankAfter s.bank r, response := some (.ok p) }) h
  obtain ⟨rfl, -⟩ := endsWell_zero_iff.1 h
  exact ⟨rfl, rfl⟩

/-- Settles O47: `exists_endsWell_two_iff` is symmetric in the operations, and the bank is the access's in both
orders. -/
theorem decodeAndAccessCommute : Obligations.DecodeAndAccessCommute := by
  intro s r a v f n hlatch hr
  refine ⟨?_, fun t u ht hu => ?_⟩
  · rw [exists_endsWell_two_iff hlatch, exists_endsWell_two_iff hlatch, and_comm]
  · obtain ⟨hbank, hreq⟩ := bank_of_endsWell_two ht
    obtain ⟨hbank', hreq'⟩ := bank_of_endsWell_two hu
    rw [hbank, hbank', hreq, hreq', bankAfter_of_not_access _ hr, bankAfter_of_not_access _ hr]
    exact ⟨rfl, rfl⟩

end Sys2Proof.Machine
end

section
/-! The interface at its ends: reset, idle steps, responses and codes (10_state.md R28 to R37), and the consumer's store
and load (20_memory.md R56). -/

namespace Sys2Proof.Machine

/-- No operation reads the response: each ends in `respond`, `raise` or `refuse`, and these replace it or drop it. -/
theorem serve_withResponse (r : Request) (s : State) (p : Option Response) :
    serve r (s.withResponse p) = serve r s := by
  cases r <;> rfl

/-- Settles O48: a step is idle, which replaces the response, or serves as `serve_withResponse` says. -/
theorem noOperationReadsAnEarlierResponse : Obligations.NoOperationReadsAnEarlierResponse := by
  rintro ⟨bank, latch, _ | ⟨r, rest⟩, response⟩ p
  · rfl
  · exact serve_withResponse r ⟨bank, latch, rest, response⟩ p

/-- Settles O50: the idle step of `idle_next_iff`. -/
theorem idleStepChangesNothing : Obligations.IdleStepChangesNothing := by
  intro s hlatch hnone
  obtain ⟨-, hidle⟩ | ⟨r, rest, hsome, -⟩ := step_cases s
  · exact hidle.trans (idle_next_iff.2 ⟨hlatch, rfl⟩)
  · rw [hnone] at hsome
    cases hsome

/-- Settles O1: no address is listed. -/
theorem resetBankIsZeroAndNoFaultLatched : Obligations.ResetBankIsZeroAndNoFaultLatched :=
  ⟨fun _ => rfl, rfl⟩

/-- Settles O2: the empty bank is canonical and nothing is latched or answered. -/
theorem resetStateMeetsInvariant : Obligations.ResetStateMeetsInvariant :=
  ⟨by decide, by decide, nofun, fun _ => iff_of_false nofun nofun, nofun⟩

theorem memRead_nil (a n : Nat) : memRead [] a n = 0#32 :=
  BitVec.eq_of_getLsbD_eq fun k hk => by
    rw [getLsbD_memRead [] a n hk]
    simp [bankByte, unlistedByte]

/-- Settles O49: the word read is 0, and 0x00 is no opcode's code. -/
theorem decodingUnwrittenMemoryEndsTheRun : Obligations.DecodingUnwrittenMemoryEndsTheRun := by
  intro a ha
  have hread := step_issued_access_read (s := State.reset) (f := ⟨false, true, true⟩) 0 rfl (.inr (.inr rfl)) ha rfl rfl
  have hillegal : classify 0#32 = .error (.illegalOpcode 0) := by decide
  refine ⟨_, 0#32, hread, ?_, step_issued_decode_of_classify_error rfl hillegal⟩
  rw [← memRead_nil a.toNat 4]
  rfl

/-- Settles O51: three Booleans against three bits, and the tables. -/
theorem interfaceCodesAreAsTabulated : Obligations.InterfaceCodesAreAsTabulated := by
  refine ⟨?_, by decide, ?_, rfl, rfl, rfl, rfl, rfl, rfl, rfl, rfl, rfl, rfl, rfl, rfl, rfl⟩
  · rintro ⟨_ | _, _ | _, _ | _⟩ <;> rfl
  · rintro ⟨_ | _, _ | _, _ | _⟩ <;> decide

/-! ## The consumer's store and load (R56) -/

/-- The accesses of the store and the load that a width code names, with the width's byte count. -/
theorem consumerAccess_of_code (x : List Word) (imm : Word) (rs2 rs1 rd : RegIndex) {code : Funct3}
    (hcode : code ∈ [0#3, 1#3, 2#3]) :
    ∃ w, widthBytes w = 2 ^ code.toNat ∧
      consumerAccess x ⟨.store, .s imm rs2 rs1 code⟩ =
        some (.access (x.getD rs1.toNat 0 + imm) (x.getD rs2.toNat 0) ⟨true, false, false⟩ (widthBytes w)) ∧
      consumerAccess x ⟨.load, .i imm rs1 rd code⟩ =
        some (.access (x.getD rs1.toNat 0 + imm) 0 ⟨false, true, true⟩ (widthBytes w)) := by
  simp only [List.mem_cons, List.not_mem_nil, or_false] at hcode
  obtain rfl | rfl | rfl := hcode
  exacts [⟨.byte, rfl, rfl, rfl⟩, ⟨.halfword, rfl, rfl, rfl⟩, ⟨.word, rfl, rfl, rfl⟩]

/-- Settles O53: the two accesses are a write and a read of one address and width, run by `run_write_read`. -/
theorem consumerStoreThenLoadRoundTrip : Obligations.ConsumerStoreThenLoadRoundTrip := by
  intro s x imm rs2 rs1 rd code hcode hlatch hwf _ ha
  obtain ⟨w, hbytes, hstore, hload⟩ := consumerAccess_of_code x imm rs2 rs1 rd hcode
  have hwidth : (2 ^ code.toNat : Int) = widthBytes w := by rw [hbytes]; norm_num
  rw [hwidth] at ha
  have hrun := run_write_read (x.getD rs2.toNat 0) 0 hlatch hwf (legalWidth_iff_exists_widthBytes.2 ⟨w, rfl⟩) ha
  refine ⟨_, _, _, hstore, hload, ⟨hrun, hlatch⟩, ?_⟩
  rw [← hbytes]
  rfl

end Sys2Proof.Machine
end
